-- ==== Sys2Proof/Word.lean ====
section
/-! DEFINITION. The three word types of the block (00_scope.md R6, R7). -/

namespace Sys2Proof

/-- A `Byte` is 8 bits (R7): one memory cell, one text character. -/
abbrev Byte := BitVec 8

/-- A `Sextet` is 6 bits (R7): an index into the alphabet. -/
abbrev Sextet := BitVec 6

/-- A `Word` is 32 bits (R6 `REG_WIDTH`, `ADDR_WIDTH`): a register, a command word, a bus address. -/
abbrev Word := BitVec 32

end Sys2Proof
end

