-- ==== Sys2Proof/Syntax.lean ====
section
/-! DEFINITION. The commands of the block, one constructor for each row of spec/opcode_table.json. -/

namespace Sys2Proof

/-- A command (30_encoding.md R49). It has no encoded operand: SRC_ADDR, SRC_LEN and DST_ADDR are implicit (R51). -/
inductive Instr where
  /-- ENCODE (41_encode.md R77): Base64 text of the source window into the destination window. -/
  | encode
  /-- DECODE (42_decode.md R93): the bytes of the Base64 text of the source window into the destination window. -/
  | decode
  deriving DecidableEq, Repr

end Sys2Proof
end

