-- ==== Sys2Proof/WellFormed.lean ====
section
/-! DEFINITION. What makes a command, and the two fields of a command word, well formed. -/

namespace Sys2Proof

/-- A command carries no operand (30_encoding.md R48, R51), so every term of `Instr` is well formed. -/
def Instr.wf (i : Instr) : Bool :=
  match i with
  | .encode => true
  | .decode => true

/-- The format `CMD32` (30_encoding.md R48): OP is bits 3:0 of the word, RSV is bits 31:4. -/
structure CmdFields where
  op  : BitVec 4
  rsv : BitVec 28
  deriving DecidableEq, Repr

/-- The two fields of a command word (R48). -/
def CmdFields.ofWord (w : Word) : CmdFields :=
  { op := w.extractLsb' 0 4, rsv := w.extractLsb' 4 28 }

/-- RSV must be 0 (R48). -/
def CmdFields.rsvOk (f : CmdFields) : Bool := f.rsv == 0#28

/-- OP must be 0x1 or 0x2 (R48, R55). -/
def CmdFields.opOk (f : CmdFields) : Bool := f.op == 1#4 || f.op == 2#4

/-- The fields of a legal command word (R55): both checks hold. -/
def CmdFields.wf (f : CmdFields) : Bool := f.rsvOk && f.opOk

end Sys2Proof
end

