-- ==== Sys2Proof/Decode.lean ====
section
/-! DEFINITION. The command decoder, total on every word (30_encoding.md R50), and the encoder (R49). -/

namespace Sys2Proof

/-- What the decoder answers (R50): a command, or `Illegal` by name. -/
inductive CmdDecode where
  /-- one of the two legal words (R49) -/
  | command (i : Instr)
  /-- every other word (R55); the issue procedure answers it with ILLEGAL_COMMAND -/
  | illegal
  deriving DecidableEq, Repr

/-- `CmdDecode(w)` of R50, in its mask and match form: the mask is the whole word. -/
def cmdDecode (w : Word) : CmdDecode :=
  if w &&& 0xFFFFFFFF#32 = 0x00000001#32 then .command .encode
  else if w &&& 0xFFFFFFFF#32 = 0x00000002#32 then .command .decode
  else .illegal

/-- The word of a command, from the opcode map (R49). -/
def encode (i : Instr) : Word :=
  match i with
  | .encode => 0x00000001#32
  | .decode => 0x00000002#32

/-- The command my decoder reads from an instruction whose bits are `w`, numbered as spec/opcode_table.json numbers them.
A command is one 32-bit word carried by one register write (R56, R36), so there is nothing to lay out in bytes; bits
above `nbits` are 0, and no command is longer than 32 bits. -/
def decodeTableWord (nbits w : Nat) : Option Instr :=
  if nbits ≤ 32 then
    match cmdDecode (BitVec.ofNat 32 (w % 2 ^ nbits)) with
    | .command i => some i
    | .illegal => none
  else none

end Sys2Proof
end

