-- ==== Sys2Proof/Config.lean ====
section
/-! DEFINITION. What the platform fixes (00_scope.md R6, the two OPEN parameters) and the free values (R11 `draw Byte`). -/

namespace Sys2Proof

/-- A range of memory and what the platform says of it. -/
structure Region where
  /-- first address -/
  base : Nat
  /-- length in bytes -/
  size : Nat
  /-- the engine may read it (`MemAdmits(a, R)`) -/
  read : Bool
  /-- the engine may write it (`MemAdmits(a, W)`) -/
  write : Bool
  /-- it is ordinary memory in the sense of 20_memory.md R39 -/
  ordinary : Bool
  deriving DecidableEq, Repr

/-- The OPEN parameters of 00_scope.md R6, as data (DESIGN CHOICE, log entries 1 and 2). -/
structure Platform where
  /-- bits 31:6 of `B64_REG_BASE`, which is a multiple of 0x40 (R6) -/
  regBlock : BitVec 26
  /-- the memory map behind `MemAdmits` and `OrdinaryWindows` -/
  regions : List Region
  deriving DecidableEq, Repr

/-- The example platform of 95_test_vectors.md section 0: `B64_REG_BASE` = 0x40000000, and every address 0x00000000 to
0x3FFFFFFF admitted for reads and writes. DESIGN CHOICE (log entry 1): State.reset holds it; no statement rests on it. -/
def Config.examplePlatform : Platform where
  regBlock := 0x1000000#26
  regions := [{ base := 0, size := 0x40000000, read := true, write := true, ordinary := true }]

/-- The k-th value of `draw Byte` (00_scope.md R11): a free value, any of 0 to 255. It has no body, so nothing can be
proved of it (log entry 8). -/
opaque Config.drawByte : Nat → Byte

end Sys2Proof
end

