-- ==== Sys2Proof/Machine/State.lean ====
section
/-! DEFINITION. The state of the block, of the platform's memory and of the schedule, as plain data; reset. -/

namespace Sys2Proof.Machine

/-- The model faults of 60_exceptions.md R99. R99 says that the model RECORDS a fault bit and that later steps go on, so a
step that meets one answers a next state with the bit set (`State.faults`) and `Host.Outcome.fault` is answered by no step.
DESIGN CHOICE, log entry 5: safe for every claim that takes the premise `NoFault` (R120), unsafe for one that does not. -/
inductive Fault where
  /-- A register access that is not a 32-bit access at a multiple-of-4 offset (10_state.md R21). Recorded by the host's
  register reads and writes, and by its byte accesses inside the register window. Safe under `NoFault`. -/
  | unsupportedRegisterAccess
  /-- An engine read or write of a window byte the platform does not admit (20_memory.md R30). Recorded by the engine's
  completion step. Safe under `NoFault`. -/
  | engineBusError
  /-- A host memory write into a window of the job in flight (70_reset_and_hazards.md R115). Recorded by the host's store.
  Safe under `NoFault`. -/
  | windowHazard
  deriving DecidableEq, Repr

/-- Why a step has no meaning. -/
inductive Refusal where
  /-- An instruction of the table without a meaning yet, rejected by its mnemonic in `exec`. Safe. No arm answers it now. -/
  | notModelled (mnemonic : String)
  /-- A job's window, or a host memory access, covers memory that is not ordinary (20_memory.md R39: "has no rule for other
  memory"; 93_implementation_defined.md U10 `refuse`). Answered by the engine's completion step and by the host's loads and
  stores. Safe: nothing is claimed. Log entry 11. -/
  | notOrdinaryMemory
  deriving DecidableEq, Repr

/-- The recorded model faults (R99), one bit each. -/
structure FaultBits where
  unsupportedRegisterAccess : Bool
  engineBusError : Bool
  windowHazard : Bool
  deriving DecidableEq, Repr

/-- A job in flight (10_state.md R25): the accepted command with its latched operands. -/
structure Job where
  op   : Instr
  src  : Word
  n    : Word
  dst  : Word
  wlen : Nat
  deriving DecidableEq, Repr

/-- The registers of the register window (10_state.md R13). -/
inductive Reg where
  | cmd
  | status
  | srcAddr
  | srcLen
  | dstAddr
  | outLen
  /-- offsets 0x18 to 0x3C (R20) -/
  | reserved
  deriving DecidableEq, Repr

/-- The datum a host read got (30_encoding.md R59 `RD`, `LB`). -/
inductive Reply where
  | word (w : Word)
  | byte (b : Byte)
  deriving DecidableEq, Repr

/-- What an engine access does to a byte: `kind` of `MemAdmits(addr, kind)` (00_scope.md R6). -/
inductive AccessKind where
  | read
  | write
  deriving DecidableEq, Repr

/-- One event of the schedule (10_state.md R26): a host access, the engine's turn, or RESET. -/
inductive Event where
  /-- a host write of `width` bits at byte `offset` of the register window (R13, R21) -/
  | regWrite (width : Nat) (offset : BitVec 6) (data : Word)
  /-- a host read of `width` bits at byte `offset` of the register window (R13, R21) -/
  | regRead (width : Nat) (offset : BitVec 6)
  /-- a host byte store to memory (30_encoding.md R59 `SB`) -/
  | store (addr : Word) (data : Byte)
  /-- a host byte load from memory (R59 `LB`) -/
  | load (addr : Word)
  /-- the host's `WAITDONE` (30_encoding.md R60) -/
  | waitDone
  /-- the engine is scheduled (10_state.md R26) -/
  | engine
  /-- RESET (70_reset_and_hazards.md R110) -/
  | reset
  deriving DecidableEq, Repr

end Sys2Proof.Machine

namespace Sys2Proof.Machine

/-- The machine: the block's state (10_state.md, 60_exceptions.md R99), the platform's memory (20_memory.md R30), and the
model's own fields `platform`, `inputs`, `reply`, `draws`. CMD and the reserved offsets hold no value (R14, R20). -/
structure State where
  /-- STATUS (R15) -/
  status : Word
  /-- SRC_ADDR (R16) -/
  srcAddr : Word
  /-- SRC_LEN (R17) -/
  srcLen : Word
  /-- DST_ADDR (R18) -/
  dstAddr : Word
  /-- OUT_LEN (R19) -/
  outLen : Word
  /-- JOB (R25) -/
  job : Option Job
  /-- the recorded model faults (R99) -/
  faults : FaultBits
  /-- the platform's memory (R30): addresses strictly rising, below 2^32, no byte that an unlisted address reads as -/
  mem : List Host.Cell
  /-- the OPEN parameters (00_scope.md R6), log entries 1 and 2 -/
  platform : Platform
  /-- the schedule: the events still to come, the next one first (R26), log entry 4 -/
  inputs : List Event
  /-- the datum the last host read got, if it got one, log entry 12 -/
  reply : Option Reply
  /-- how many values `draw Byte` has given, log entry 8 -/
  draws : Nat
  deriving DecidableEq, Repr

/-- No model fault is recorded. -/
def FaultBits.clear : FaultBits where
  unsupportedRegisterAccess := false
  engineBusError := false
  windowHazard := false

/-- The machine right after reset: the table of 70_reset_and_hazards.md R110, no fault recorded (R120 `CleanEntry`,
`NoFault`), nothing listed in memory, nothing scheduled. The values of `platform`, `inputs`, `reply` and `draws` are the
model's (DESIGN CHOICE, log entries 1, 4, 8, 12). -/
def State.reset : State where
  status := 0x00000000#32
  srcAddr := 0x00000000#32
  srcLen := 0x00000000#32
  dstAddr := 0x00000000#32
  outLen := 0x00000000#32
  job := none
  faults := FaultBits.clear
  mem := []
  platform := Config.examplePlatform
  inputs := []
  reply := none
  draws := 0

end Sys2Proof.Machine
end

