-- ==== Sys2Proof/Machine/Alphabet.lean ====
section
/-! DEFINITION. The Alphabet Table: the forward table FWD and the reverse table REV (40_alphabet.md). -/

namespace Sys2Proof.Machine

/-- FWD (40_alphabet.md R61): `A` to `Z`, `a` to `z`, `0` to `9`, `+`, `/`, each as its ASCII code. The codes are those of
the table of R61. -/
def fwdTable : List Byte :=
  [0x41#8, 0x42#8, 0x43#8, 0x44#8, 0x45#8, 0x46#8, 0x47#8, 0x48#8, 0x49#8, 0x4A#8, 0x4B#8, 0x4C#8, 0x4D#8, 0x4E#8, 0x4F#8, 0x50#8]
  ++ [0x51#8, 0x52#8, 0x53#8, 0x54#8, 0x55#8, 0x56#8, 0x57#8, 0x58#8, 0x59#8, 0x5A#8, 0x61#8, 0x62#8, 0x63#8, 0x64#8, 0x65#8, 0x66#8]
  ++ [0x67#8, 0x68#8, 0x69#8, 0x6A#8, 0x6B#8, 0x6C#8, 0x6D#8, 0x6E#8, 0x6F#8, 0x70#8, 0x71#8, 0x72#8, 0x73#8, 0x74#8, 0x75#8, 0x76#8]
  ++ [0x77#8, 0x78#8, 0x79#8, 0x7A#8, 0x30#8, 0x31#8, 0x32#8, 0x33#8, 0x34#8, 0x35#8, 0x36#8, 0x37#8, 0x38#8, 0x39#8, 0x2B#8, 0x2F#8]

/-- The pad character `=` (00_scope.md R6). -/
def padByte : Byte := 0x3D#8

/-- `valueOf(i) = FWD[i]` (40_alphabet.md R63). Every sextet is an index of the table, so the default is never taken. -/
def valueOf (i : Sextet) : Byte := fwdTable.getD i.toNat padByte

/-- An entry of REV (00_scope.md R10). -/
inductive RevEntry where
  | value (s : Sextet)
  | pad
  | invalid
  deriving DecidableEq, Repr

/-- The index of a character in a piece of FWD that begins at index `k`. -/
def fwdIndex (k : Nat) (table : List Byte) (c : Byte) : Option Sextet :=
  match table with
  | [] => none
  | x :: rest => if c = x then some (BitVec.ofNat 6 k) else fwdIndex (k + 1) rest c

/-- `indexOf(c) = REV[c]` (40_alphabet.md R64, R65): `Value(i)` where `c = FWD[i]`, `Pad` for `=`, `Invalid` otherwise. -/
def indexOf (c : Byte) : RevEntry :=
  match fwdIndex 0 fwdTable c with
  | some i => .value i
  | none => if c = padByte then .pad else .invalid

/-- The reference ROM form of an entry of REV (40_alphabet.md R67): bit 7 `Invalid`, bit 6 `Pad`, bits 5:0 the sextet. It is not
visible to software and no meaning uses it. -/
def RevEntry.rom (e : RevEntry) : Byte :=
  match e with
  | .value s => s.setWidth 8
  | .pad => 0x40#8
  | .invalid => 0x80#8

end Sys2Proof.Machine
end

