-- ==== Sys2Proof/Machine/Ops.lean ====
section
/-! DEFINITION. The named operations over memory, the platform and the registers, and ending a command (the block's
equivalent of taking an exception, 60_exceptions.md R102). -/

namespace Sys2Proof.Machine

/-! ## Memory (20_memory.md R30, R34) -/

/-- What an address that memory does not list reads as. DESIGN CHOICE (log entry 3): 0x00; the spec gives memory no reset
contents (10_state.md R29), so a proof that leans on it is unsafe. -/
def Memory.unlisted : Byte := 0x00#8

/-- The byte at an address: `MemRead(a, 1)` (00_scope.md R11). -/
def Memory.get (m : List Host.Cell) (a : Nat) : Byte :=
  match m with
  | [] => Memory.unlisted
  | (x, v) :: rest => if a = x then v else if a < x then Memory.unlisted else Memory.get rest a

/-- The cell of one byte, or no cell where the byte is what an unlisted address reads as. -/
def Memory.cell (a : Nat) (b : Byte) : List Host.Cell :=
  if b = Memory.unlisted then [] else [(a, b)]

/-- Write one byte: `MemWrite(a, 1, b)` (R11), keeping the canonical form. -/
def Memory.set (m : List Host.Cell) (a : Nat) (b : Byte) : List Host.Cell :=
  match m with
  | [] => Memory.cell a b
  | (x, v) :: rest =>
    if a < x then Memory.cell a b ++ (x, v) :: rest
    else if a = x then Memory.cell a b ++ rest
    else (x, v) :: Memory.set rest a b

/-- `MemRead(a, n)` (R11, R34): the byte at `a` first. -/
def Memory.read (m : List Host.Cell) (a n : Nat) : List Byte :=
  match n with
  | 0 => []
  | k + 1 => Memory.get m a :: Memory.read m (a + 1) k

/-- `MemWrite(a, n, s)` (R11, R34): `s[i]` to address `a + i`. -/
def Memory.write (m : List Host.Cell) (a : Nat) (s : List Byte) : List Host.Cell :=
  match s with
  | [] => m
  | b :: rest => Memory.write (Memory.set m a b) (a + 1) rest

/-- Every listed address is at least `lo` and below 2^32, addresses strictly rise, and no byte is the unlisted one. -/
def Memory.wfFrom (lo : Nat) (m : List Host.Cell) : Bool :=
  match m with
  | [] => true
  | (x, v) :: rest => decide (lo ≤ x) && decide (x < 2 ^ 32) && decide (v ≠ Memory.unlisted) && Memory.wfFrom (x + 1) rest

/-- The canonical form of memory. -/
def Memory.wf (m : List Host.Cell) : Bool := Memory.wfFrom 0 m

/-! ## The platform (00_scope.md R6) -/

/-- `B64_REG_BASE` (R6): a multiple of 0x40. -/
def Platform.regBase (p : Platform) : Word := p.regBlock ++ 0#6

/-- The bus address of an offset of the register window (10_state.md R13). -/
def Platform.regAddr (p : Platform) (off : BitVec 6) : Word := Platform.regBase p + off.setWidth 32

/-- The address lies in the register window `[B64_REG_BASE, B64_REG_BASE + 0x40)` (R13). -/
def Platform.inRegWindow (p : Platform) (a : Nat) : Bool :=
  decide ((Platform.regBase p).toNat ≤ a) && decide (a < (Platform.regBase p).toNat + 0x40)

/-- The region covers the address. -/
def Region.covers (r : Region) (a : Nat) : Bool := decide (r.base ≤ a) && decide (a < r.base + r.size)

/-- `MemAdmits(a, kind)` (R6). -/
def memAdmits (p : Platform) (a : Nat) (kind : AccessKind) : Bool :=
  match kind with
  | .read => p.regions.any fun r => Region.covers r a && r.read
  | .write => p.regions.any fun r => Region.covers r a && r.write

/-- The byte is ordinary memory (20_memory.md R39): no region marks it otherwise. -/
def isOrdinary (p : Platform) (a : Nat) : Bool := p.regions.all fun r => !Region.covers r a || r.ordinary

/-! ## One field of the state at a time -/

def State.setStatus (s : State) (v : Word) : State := { s with status := v }
def State.setSrcAddr (s : State) (v : Word) : State := { s with srcAddr := v }
def State.setSrcLen (s : State) (v : Word) : State := { s with srcLen := v }
def State.setDstAddr (s : State) (v : Word) : State := { s with dstAddr := v }
def State.setOutLen (s : State) (v : Word) : State := { s with outLen := v }
def State.setJob (s : State) (v : Option Job) : State := { s with job := v }
def State.setFaults (s : State) (v : FaultBits) : State := { s with faults := v }
def State.setMem (s : State) (v : List Host.Cell) : State := { s with mem := v }
def State.setInputs (s : State) (v : List Event) : State := { s with inputs := v }
def State.setReply (s : State) (v : Option Reply) : State := { s with reply := v }
def State.setDraws (s : State) (v : Nat) : State := { s with draws := v }

/-! ## Model faults (60_exceptions.md R99) -/

/-- Set the bit of one model fault; the others stay as they are. -/
def FaultBits.record (b : FaultBits) (f : Fault) : FaultBits :=
  match f with
  | .unsupportedRegisterAccess => { b with unsupportedRegisterAccess := true }
  | .engineBusError => { b with engineBusError := true }
  | .windowHazard => { b with windowHazard := true }

/-- The bit of one model fault. -/
def FaultBits.has (b : FaultBits) (f : Fault) : Bool :=
  match f with
  | .unsupportedRegisterAccess => b.unsupportedRegisterAccess
  | .engineBusError => b.engineBusError
  | .windowHazard => b.windowHazard

/-- `fault(reason)` (00_scope.md R11, R99): the model records the fault; nothing else changes. -/
def State.recordFault (s : State) (f : Fault) : State := s.setFaults (FaultBits.record s.faults f)

/-! ## Free values (00_scope.md R11 `draw Byte`) -/

/-- `k` draws, the first of them number `c`. -/
def drawBytes (c k : Nat) : List Byte :=
  match k with
  | 0 => []
  | k + 1 => Config.drawByte c :: drawBytes (c + 1) k

/-- Every byte of the job's destination window becomes a fresh draw (20_memory.md R40, 70_reset_and_hazards.md R110). -/
def State.drawWindow (s : State) (j : Job) : State :=
  (s.setMem (Memory.write s.mem j.dst.toNat (drawBytes s.draws j.wlen))).setDraws (s.draws + j.wlen)

end Sys2Proof.Machine
end

