-- ==== Sys2Proof/Machine/Flags.lean ====
section
/-! DEFINITION. The flags: STATUS.BUSY, STATUS.DONE and STATUS.CODE (10_state.md R15, R28), and reporting the end of a command
(60_exceptions.md R102). -/

namespace Sys2Proof.Machine

/-- The result codes (60_exceptions.md R95); values 4 to 15 are never produced. -/
inductive ResultCode where
  | ok
  | invalidInput
  | illegalCommand
  | windowError
  deriving DecidableEq, Repr

/-- STATUS.CODE of a result code (R95). -/
def ResultCode.bits (c : ResultCode) : BitVec 4 :=
  match c with
  | .ok => 0#4
  | .invalidInput => 1#4
  | .illegalCommand => 2#4
  | .windowError => 3#4

/-- The STATUS word with the given fields (R15): BUSY bit 0, DONE bit 1, CODE bits 7:4, every reserved bit 0. -/
def statusWord (busy done : Bool) (code : ResultCode) : Word :=
  0#24 ++ ResultCode.bits code ++ 0#2 ++ BitVec.ofBool done ++ BitVec.ofBool busy

/-- STATUS.BUSY of a STATUS word (R15). -/
def statusBusy (w : Word) : Bool := w.getLsbD 0

/-- STATUS.DONE of a STATUS word (R15). -/
def statusDone (w : Word) : Bool := w.getLsbD 1

/-- STATUS.CODE of a STATUS word (R15). -/
def statusCode (w : Word) : BitVec 4 := w.extractLsb' 4 4

/-- STATUS.BUSY of the machine. -/
def State.busy (s : State) : Bool := statusBusy s.status

/-- STATUS.DONE of the machine. -/
def State.done (s : State) : Bool := statusDone s.status

/-- The legal combinations of the fields (R15): idle after reset, in flight, ended with a produced code. -/
def statusLegal (w : Word) : Bool :=
  w == statusWord false false .ok || w == statusWord true false .ok || w == statusWord false true .ok ||
    w == statusWord false true .invalidInput || w == statusWord false true .illegalCommand ||
    w == statusWord false true .windowError

/-- The report of an ended command (60_exceptions.md R102): STATUS becomes `{BUSY 0, DONE 1, CODE c}` and OUT_LEN the length
of the result. The block saves no program counter, switches no mode and transfers no control. -/
def State.report (s : State) (c : ResultCode) (len : Nat) : State :=
  (s.setOutLen (BitVec.ofNat 32 len)).setStatus (statusWord false true c)

end Sys2Proof.Machine
end

