-- ==== Sys2Proof/Machine/Operands.lean ====
section
/-! DEFINITION. The implicit operands of a command (30_encoding.md R51), its windows and the window rule (20_memory.md R32,
R33), and the issue procedure of a legal word (30_encoding.md R52). -/

namespace Sys2Proof.Machine

/-- The destination window length (20_memory.md R32): `4 * ceil(n / 3)` for ENCODE, `3 * (n div 4)` for DECODE. -/
def wlen (i : Instr) (n : Nat) : Nat :=
  match i with
  | .encode => 4 * ((n + 2) / 3)
  | .decode => 3 * (n / 4)

/-- `Overlap(a, la, b, lb)` of 20_memory.md R33. -/
def overlap (a la b lb : Nat) : Bool :=
  decide (0 < la) && decide (0 < lb) && decide (a < b + lb) && decide (b < a + la)

/-- `WindowOK(op, s, n, d)` of 20_memory.md R33, over the integers; `base` is `B64_REG_BASE`. -/
def windowOK (base : Nat) (i : Instr) (s n d : Nat) : Bool :=
  decide (s + n ≤ 2 ^ 32) && decide (d + wlen i n ≤ 2 ^ 32) && decide (wlen i n ≤ 2 ^ 32 - 1) &&
    !overlap s n d (wlen i n) && !overlap s n base 0x40 && !overlap d (wlen i n) base 0x40

/-- The window rule for the operands the registers hold now. -/
def State.windowOK (s : State) (i : Instr) : Bool :=
  Machine.windowOK (Platform.regBase s.platform).toNat i s.srcAddr.toNat s.srcLen.toNat s.dstAddr.toNat

/-- The job a command starts (10_state.md R25): the operands latched from the registers (30_encoding.md R51). -/
def State.latch (s : State) (i : Instr) : Job where
  op := i
  src := s.srcAddr
  n := s.srcLen
  dst := s.dstAddr
  wlen := wlen i s.srcLen.toNat

/-- Acceptance (the last lines of 30_encoding.md R52): JOB is set, STATUS becomes `{BUSY 1, DONE 0, CODE OK}`, OUT_LEN 0. -/
def State.accept (s : State) (i : Instr) : State :=
  ((s.setOutLen 0#32).setJob (some (s.latch i))).setStatus (statusWord true false .ok)

/-- The issue procedure of a legal command (30_encoding.md R52, in the order of 60_exceptions.md R101): ignored while
BUSY = 1; refused with WINDOW_ERROR when the window rule fails; accepted otherwise. -/
def issue (i : Instr) (s : State) : Host.Outcome State Fault Refusal :=
  if s.busy then .next s
  else if s.windowOK i then .next (s.accept i)
  else .next (s.report .windowError 0)

/-- The issue procedure of an illegal word (30_encoding.md R52, R55; 60_exceptions.md R97). -/
def issueIllegal (s : State) : Host.Outcome State Fault Refusal :=
  if s.busy then .next s else .next (s.report .illegalCommand 0)

/-- The byte range `[a, a + n)` holds the address (R32). -/
def inWindow (a n x : Nat) : Bool := decide (a ≤ x) && decide (x < a + n)

/-- The address is in the source window of the job (R38). -/
def Job.inSrc (j : Job) (x : Nat) : Bool := inWindow j.src.toNat j.n.toNat x

/-- The address is in the destination window of the job (R38). -/
def Job.inDst (j : Job) (x : Nat) : Bool := inWindow j.dst.toNat j.wlen x

/-- A property of every address of `[a, a + n)`. -/
def allFrom (q : Nat → Bool) (a n : Nat) : Bool :=
  match n with
  | 0 => true
  | k + 1 => q a && allFrom q (a + 1) k

/-- Every window byte is admitted (20_memory.md R30; 42_decode.md R94: "The model conservatively requires every window byte to
be admitted"). DEDUCED, log entry 6. -/
def jobAdmitted (p : Platform) (j : Job) : Bool :=
  allFrom (fun x => memAdmits p x .read) j.src.toNat j.n.toNat &&
    allFrom (fun x => memAdmits p x .write) j.dst.toNat j.wlen

/-- Every window byte is ordinary memory (20_memory.md R39). -/
def jobOrdinary (p : Platform) (j : Job) : Bool :=
  allFrom (isOrdinary p) j.src.toNat j.n.toNat && allFrom (isOrdinary p) j.dst.toNat j.wlen

/-- The guard of both completion steps (41_encode.md R78, 42_decode.md R94): a window byte the platform does not admit records
EngineBusError, which overrides any code (60_exceptions.md R101); nothing else changes (DESIGN CHOICE, log entry 5). A window
byte that is not ordinary memory has no rule (R39, log entry 11). -/
def complete (j : Job) (s done : State) : Host.Outcome State Fault Refusal :=
  if !jobAdmitted s.platform j then .next (s.recordFault .engineBusError)
  else if !jobOrdinary s.platform j then .refused .notOrdinaryMemory
  else .next done

/-- Completion with `Ok(out)` (20_memory.md R40): exactly `len(out)` bytes are written at the destination. -/
def State.finishOk (s : State) (j : Job) (out : List Byte) : State :=
  ((s.setMem (Memory.write s.mem j.dst.toNat out)).report .ok out.length).setJob none

/-- Completion with `Err(INVALID_INPUT)` (20_memory.md R40): every byte of the destination window is a draw. -/
def State.finishErr (s : State) (j : Job) : State :=
  ((s.drawWindow j).report .invalidInput 0).setJob none

end Sys2Proof.Machine
end

