-- ==== Sys2Proof/Machine/Decoder.lean ====
section
/-! DEFINITION. The decoder datapath and the DECODE command (42_decode.md). -/

namespace Sys2Proof.Machine

/-- `b0 = (v0 << 2) | (v1 >> 4)` (42_decode.md R84), in 8 bits. -/
def decB0 (v0 v1 : Sextet) : Byte := (v0.setWidth 8 <<< 2) ||| (v1.setWidth 8 >>> 4)

/-- `b1 = ((v1 & 0x0F) << 4) | (v2 >> 2)` (R84). -/
def decB1 (v1 v2 : Sextet) : Byte := ((v1.setWidth 8 &&& 0x0F#8) <<< 4) ||| (v2.setWidth 8 >>> 2)

/-- `b2 = ((v2 & 0x03) << 6) | v3` (R84). -/
def decB2 (v2 v3 : Sextet) : Byte := ((v2.setWidth 8 &&& 0x03#8) <<< 6) ||| v3.setWidth 8

/-- A group with four symbols (R84). -/
def decGroup4 (v0 v1 v2 v3 : Sextet) : List Byte := [decB0 v0 v1, decB1 v1 v2, decB2 v2 v3]

/-- A group ending in one pad (R85): bits 1:0 of `v2` are discarded (R90). -/
def decGroup3 (v0 v1 v2 : Sextet) : List Byte := [decB0 v0 v1, decB1 v1 v2]

/-- A group ending in two pads (R86): bits 3:0 of `v1` are discarded (R90). -/
def decGroup2 (v0 v1 : Sextet) : List Byte := [decB0 v0 v1]

/-- A codec result (00_scope.md R10): `Ok(s)` or `Err(INVALID_INPUT)`. -/
inductive CodecResult where
  | ok (out : List Byte)
  | invalidInput
  deriving DecidableEq, Repr

/-- The entry is a `Value`. -/
def RevEntry.isValue (e : RevEntry) : Bool :=
  match e with
  | .value _ => true
  | .pad => false
  | .invalid => false

/-- `PadOK` (42_decode.md R82): no pad in any group; one or two trailing pads in the final group only. -/
def padOK (final : Bool) (e1 e2 e3 e4 : RevEntry) : Bool :=
  (e1.isValue && e2.isValue && e3.isValue && e4.isValue) ||
    (final && e1.isValue && e2.isValue && e3.isValue && e4 == .pad) ||
    (final && e1.isValue && e2.isValue && e3 == .pad && e4 == .pad)

/-- The bytes of a group that passed the pad check (the match of 42_decode.md R88); other groups give none. -/
def decGroup (e1 e2 e3 e4 : RevEntry) : List Byte :=
  match e1, e2, e3, e4 with
  | .value v0, .value v1, .value v2, .value v3 => decGroup4 v0 v1 v2 v3
  | .value v0, .value v1, .value v2, .pad => decGroup3 v0 v1 v2
  | .value v0, .value v1, .pad, .pad => decGroup2 v0 v1
  | _, _, _, _ => []

/-- A group's bytes before a result; an error stays an error, with no output (R88). -/
def CodecResult.prepend (r : CodecResult) (g : List Byte) : CodecResult :=
  match r with
  | .ok out => .ok (g ++ out)
  | .invalidInput => .invalidInput

/-- The group loop of R88 over the slots of the text: a group that fails the pad check ends it with an error. A tail that
is no whole group is none of the loop's inputs, because the length check comes first. -/
def decGroups (es : List RevEntry) : CodecResult :=
  match es with
  | e1 :: e2 :: e3 :: e4 :: rest =>
    if padOK rest.isEmpty e1 e2 e3 e4 then (decGroups rest).prepend (decGroup e1 e2 e3 e4) else .invalidInput
  | _ => .ok []

/-- `Dec` (42_decode.md R88): the length check (R80), the symbol check (R81), then the group loop with the pad check (R82).
No byte is stripped (R83). -/
def dec (t : List Byte) : CodecResult :=
  if t.length % 4 ≠ 0 then .invalidInput
  else if t.any fun c => indexOf c == .invalid then .invalidInput
  else decGroups (t.map indexOf)

/-- The discarded bits of a group are zero (42_decode.md R90): `v2 & 0x03` before one pad, `v1 & 0x0F` before two. -/
def canonicalGroup (e1 e2 e3 e4 : RevEntry) : Bool :=
  match e1, e2, e3, e4 with
  | .value _, .value _, .value v2, .pad => v2 &&& 0x03#6 == 0#6
  | .value _, .value v1, .pad, .pad => v1 &&& 0x0F#6 == 0#6
  | _, _, _, _ => true

/-- Every group of the slots has zero discarded bits. -/
def canonicalGroups (es : List RevEntry) : Bool :=
  match es with
  | e1 :: e2 :: e3 :: e4 :: rest => canonicalGroup e1 e2 e3 e4 && canonicalGroups rest
  | _ => true

/-- The text is canonical (R90), for a text that decodes: only its final group can have discarded bits. -/
def canonical (t : List Byte) : Bool := canonicalGroups (t.map indexOf)

/-- The effect of a CMD write of DECODE (R93): the issue procedure. The job it starts ends in `completeDecode`. -/
def execDecode (s : State) : Host.Outcome State Fault Refusal := issue .decode s

/-- What the DECODE job leaves for a codec result (42_decode.md R94, 20_memory.md R40). -/
def State.finishDecode (s : State) (j : Job) (r : CodecResult) : State :=
  match r with
  | .ok out => s.finishOk j out
  | .invalidInput => s.finishErr j

/-- The DECODE completion step (R94). -/
def completeDecode (j : Job) (s : State) : Host.Outcome State Fault Refusal :=
  complete j s (s.finishDecode j (dec (Memory.read s.mem j.src.toNat j.n.toNat)))

end Sys2Proof.Machine
end

