-- ==== Sys2Proof/Machine/Encoder.lean ====
section
/-! DEFINITION. The encoder datapath and the ENCODE command (41_encode.md). -/

namespace Sys2Proof.Machine

/-- `v0 = b0 >> 2` (41_encode.md R68). -/
def encV0 (b0 : Byte) : Sextet := (b0 >>> 2).setWidth 6

/-- `v1 = ((b0 & 0x03) << 4) | (b1 >> 4)` (R68). -/
def encV1 (b0 b1 : Byte) : Sextet := (((b0 &&& 0x03#8) <<< 4) ||| (b1 >>> 4)).setWidth 6

/-- `v2 = ((b1 & 0x0F) << 2) | (b2 >> 6)` (R68). -/
def encV2 (b1 b2 : Byte) : Sextet := (((b1 &&& 0x0F#8) <<< 2) ||| (b2 >>> 6)).setWidth 6

/-- `v3 = b2 & 0x3F` (R68). -/
def encV3 (b2 : Byte) : Sextet := (b2 &&& 0x3F#8).setWidth 6

/-- A full group (R68). -/
def encGroup3 (b0 b1 b2 : Byte) : List Sextet := [encV0 b0, encV1 b0 b1, encV2 b1 b2, encV3 b2]

/-- A 2-byte final group (R69): `v2 = (b1 & 0x0F) << 2`. -/
def encGroup2 (b0 b1 : Byte) : List Sextet := [encV0 b0, encV1 b0 b1, ((b1 &&& 0x0F#8) <<< 2).setWidth 6]

/-- A 1-byte final group (R70): `v1 = (b0 & 0x03) << 4`. -/
def encGroup1 (b0 : Byte) : List Sextet := [encV0 b0, ((b0 &&& 0x03#8) <<< 4).setWidth 6]

/-- `Enc` (R72): consecutive groups of 3 bytes, the final group of 1 or 2 bytes padded with `=`. -/
def enc (b : List Byte) : List Byte :=
  match b with
  | [] => []
  | [b0] => (encGroup1 b0).map valueOf ++ [padByte, padByte]
  | [b0, b1] => (encGroup2 b0 b1).map valueOf ++ [padByte]
  | b0 :: b1 :: b2 :: rest => (encGroup3 b0 b1 b2).map valueOf ++ enc rest

/-- The effect of a CMD write of ENCODE (R77): the issue procedure. The job it starts ends in `completeEncode`. -/
def execEncode (s : State) : Host.Outcome State Fault Refusal := issue .encode s

/-- The ENCODE completion step (R78). -/
def completeEncode (j : Job) (s : State) : Host.Outcome State Fault Refusal :=
  complete j s (s.finishOk j (enc (Memory.read s.mem j.src.toNat j.n.toNat)))

end Sys2Proof.Machine
end

