-- ==== Sys2Proof/Machine/Engine.lean ====
section
/-! DEFINITION. The engine's step (10_state.md R26). -/

namespace Sys2Proof.Machine

/-- One turn of the engine (10_state.md R26): enabled exactly when JOB = Some(j), it completes the job by its operation. With
no job it does nothing (20_memory.md R43 item 3). -/
def engineTurn (s : State) : Host.Outcome State Fault Refusal :=
  match s.job with
  | none => .next s
  | some j =>
    match j.op with
    | .encode => completeEncode j s
    | .decode => completeDecode j s

end Sys2Proof.Machine
end

