-- ==== Sys2Proof/Machine/HostBus.lean ====
section
/-! DEFINITION. What the host's bus accesses and RESET do (10_state.md R13 to R22, 70_reset_and_hazards.md R110, R115, R116). -/

namespace Sys2Proof.Machine

/-- The register at an offset of the window (10_state.md R13). -/
def Reg.at (off : BitVec 6) : Reg :=
  match off.toNat with
  | 0x00 => .cmd
  | 0x04 => .status
  | 0x08 => .srcAddr
  | 0x0C => .srcLen
  | 0x10 => .dstAddr
  | 0x14 => .outLen
  | _ => .reserved

/-- The offset of a register (30_encoding.md R59); of the reserved ones, the first (R20). -/
def Reg.offset (r : Reg) : BitVec 6 :=
  match r with
  | .cmd => 0x00#6
  | .status => 0x04#6
  | .srcAddr => 0x08#6
  | .srcLen => 0x0C#6
  | .dstAddr => 0x10#6
  | .outLen => 0x14#6
  | .reserved => 0x18#6

/-- A register access is 32 bits wide at an offset that is a multiple of 4 (10_state.md R21). -/
def supportedAccess (width : Nat) (off : BitVec 6) : Bool := width == 32 && off.toNat % 4 == 0

/-- What a read of a register returns (R13): CMD and the reserved offsets read 0 (R14, R20). -/
def State.readReg (s : State) (r : Reg) : Word :=
  match r with
  | .cmd => 0x00000000#32
  | .status => s.status
  | .srcAddr => s.srcAddr
  | .srcLen => s.srcLen
  | .dstAddr => s.dstAddr
  | .outLen => s.outLen
  | .reserved => 0x00000000#32

/-- What a write to a register other than CMD leaves when BUSY = 0 (R13): STATUS, OUT_LEN and the reserved offsets ignore it. -/
def State.writeReg (s : State) (r : Reg) (v : Word) : State :=
  match r with
  | .cmd => s
  | .status => s
  | .srcAddr => s.setSrcAddr v
  | .srcLen => s.setSrcLen v
  | .dstAddr => s.setDstAddr v
  | .outLen => s
  | .reserved => s

/-- The issue procedure of a write of `w` to CMD (30_encoding.md R52): a legal word runs its command, an illegal one ends with
ILLEGAL_COMMAND. -/
def cmdWrite (w : Word) (s : State) : Host.Outcome State Fault Refusal :=
  match cmdDecode w with
  | .command i => exec i s
  | .illegal => issueIllegal s

/-- A host write into the register window. An unsupported access records its fault and changes no register (R21); while
BUSY = 1 every register write is ignored (R22). -/
def regWrite (width : Nat) (off : BitVec 6) (v : Word) (s : State) : Host.Outcome State Fault Refusal :=
  if !supportedAccess width off then .next (s.recordFault .unsupportedRegisterAccess)
  else if Reg.at off = .cmd then cmdWrite v s
  else if s.busy then .next s
  else .next (s.writeReg (Reg.at off) v)

/-- A host read of the register window: the datum goes to `reply`, and no register changes (20_memory.md R39). An unsupported
access records its fault and gives no datum (R21, log entry 12). -/
def regRead (width : Nat) (off : BitVec 6) (s : State) : Host.Outcome State Fault Refusal :=
  if !supportedAccess width off then .next ((s.recordFault .unsupportedRegisterAccess).setReply none)
  else .next (s.setReply (some (.word (s.readReg (Reg.at off)))))

/-- The address is in a window of the job in flight (70_reset_and_hazards.md R115). -/
def State.inActiveWindow (s : State) (a : Nat) : Bool :=
  match s.job with
  | none => false
  | some j => j.inSrc a || j.inDst a

/-- The address is in the destination window of the job in flight (R116). -/
def State.inActiveDst (s : State) (a : Nat) : Bool :=
  match s.job with
  | none => false
  | some j => j.inDst a

/-- A host byte store. Into the register window it is an 8-bit register access (10_state.md R21, log entry 10). Into an active
window it records WindowHazard and the write is applied (70_reset_and_hazards.md R115). -/
def hostStore (a : Word) (b : Byte) (s : State) : Host.Outcome State Fault Refusal :=
  if Platform.inRegWindow s.platform a.toNat then .next (s.recordFault .unsupportedRegisterAccess)
  else if !isOrdinary s.platform a.toNat then .refused .notOrdinaryMemory
  else if s.inActiveWindow a.toNat then
    .next ((s.recordFault .windowHazard).setMem (Memory.set s.mem a.toNat b))
  else .next (s.setMem (Memory.set s.mem a.toNat b))

/-- A host byte load. Of the destination window of the job in flight it returns a draw, elsewhere the byte
(70_reset_and_hazards.md R116). Of the register window it is an 8-bit register access (10_state.md R21, log entry 10). -/
def hostLoad (a : Word) (s : State) : Host.Outcome State Fault Refusal :=
  if Platform.inRegWindow s.platform a.toNat then .next ((s.recordFault .unsupportedRegisterAccess).setReply none)
  else if !isOrdinary s.platform a.toNat then .refused .notOrdinaryMemory
  else if s.inActiveDst a.toNat then
    .next ((s.setReply (some (.byte (Config.drawByte s.draws)))).setDraws (s.draws + 1))
  else .next (s.setReply (some (.byte (Memory.get s.mem a.toNat))))

/-- RESET (70_reset_and_hazards.md R110): a job in flight is aborted and its destination window becomes draws; JOB and every
register take their reset values; memory outside that window, the recorded faults and the world outside the block stay. -/
def resetEvent (s : State) : State :=
  let aborted := match s.job with
    | none => s
    | some j => s.drawWindow j
  (((((aborted.setJob none).setStatus 0x00000000#32).setSrcAddr 0x00000000#32).setSrcLen 0x00000000#32).setDstAddr
    0x00000000#32).setOutLen 0x00000000#32

/-- One poll of `WAITDONE` (30_encoding.md R60): STATUS is read; with DONE = 1 the host goes on with `rest`, with DONE = 0 the
schedule is `again`. -/
def pollStatus (again rest : List Event) (s : State) : State :=
  (s.setReply (some (.word s.status))).setInputs (if s.done then rest else again)

/-- `WAITDONE` in `step`: with DONE = 0 the engine gets a turn and the host polls again (DESIGN CHOICE, log entry 14). `rest` is
the schedule after the wait. -/
def waitDone (rest : List Event) (s : State) : State := pollStatus (.engine :: .waitDone :: rest) rest s

/-- What one event does (10_state.md R26); `s` holds the schedule after it. -/
def handle (e : Event) (s : State) : Host.Outcome State Fault Refusal :=
  match e with
  | .regWrite width off v => regWrite width off v s
  | .regRead width off => regRead width off s
  | .store a b => hostStore a b s
  | .load a => hostLoad a s
  | .waitDone => .next (waitDone s.inputs s)
  | .engine => engineTurn s
  | .reset => .next (resetEvent s)

/-- One step of the machine (10_state.md R26): the next event of the schedule, or the engine's turn when none is left
(log entry 4). -/
def nextStep (s : State) : Host.Outcome State Fault Refusal :=
  match s.inputs with
  | [] => engineTurn s
  | e :: rest => handle e (s.setInputs rest)

/-- The bits of an instruction of the opcode table as one command word (its first word is its only one, 30_encoding.md R56). -/
def tableWord (nbits w : Nat) : Word := BitVec.ofNat 32 (w % 2 ^ nbits)

end Sys2Proof.Machine
end

