-- ==== Sys2Proof/Machine/Step.lean ====
section
/-! DEFINITION. One step, and where its next instruction stands. -/

namespace Sys2Proof.Machine

/-- One step of the machine. -/
def step (s : State) : Host.Outcome State Fault Refusal := nextStep s

/-- `s` with an instruction of the opcode table where `step` takes its next one: the block fetches nothing (10_state.md R24), so
the next event of the schedule is the host's 32-bit write of the word to CMD (30_encoding.md R48). Log entry 15. -/
def State.withFetchWord (s : State) (nbits w : Nat) : State :=
  s.setInputs (.regWrite 32 0x00#6 (tableWord nbits w) :: s.inputs)

end Sys2Proof.Machine
end

