-- ==== Sys2Proof/Machine/HostNotation.lean ====
section
/-! DEFINITION. The host notation of 30_encoding.md R59 and R60 as events of the schedule. -/

namespace Sys2Proof.Machine

/-- `WR <reg>, <imm32>` (30_encoding.md R59). -/
def wr (r : Reg) (v : Word) : Event := .regWrite 32 (Reg.offset r) v

/-- `RD <reg> -> t` (R59). -/
def rd (r : Reg) : Event := .regRead 32 (Reg.offset r)

/-- `SB <addr>, <imm8>` (R59). -/
def sb (a : Word) (b : Byte) : Event := .store a b

/-- `LB <addr> -> t` (R59). -/
def lb (a : Word) : Event := .load a

/-- The pseudo-instruction `ENCODE s, n, d` or `DECODE s, n, d` (R60). -/
def command (i : Instr) (s n d : Word) : List Event := [wr .srcAddr s, wr .srcLen n, wr .dstAddr d, wr .cmd (encode i)]

/-- The pseudo-instruction `RESULT -> t, u` (R60). -/
def result : List Event := [rd .status, rd .outLen]

/-- The bus address of a register write or read, from the encoding column of R59. -/
def Event.busAddr (p : Platform) (e : Event) : Option Word :=
  match e with
  | .regWrite _ off _ => some (Platform.regAddr p off)
  | .regRead _ off => some (Platform.regAddr p off)
  | .store a _ => some a
  | .load a => some a
  | .waitDone => some (Platform.regAddr p (Reg.offset .status))
  | .engine => none
  | .reset => none

end Sys2Proof.Machine
end

