-- ==== Sys2Proof/Machine/Agents.lean ====
section
/-! DEFINITION. The two agents of 10_state.md R26 with the choice of who moves left open, and executions of them. `step` is the
choice that the schedule makes (log entry 19). -/

namespace Sys2Proof.Machine

/-- The agents of 10_state.md R26. RESET comes with the host's events. -/
inductive Agent where
  | host
  | engine
  deriving DecidableEq, Repr

/-- One move of an agent (10_state.md R26). The engine takes its turn. The host does its next event; a WAITDONE that reads
DONE = 0 stays the host's next event, since the host loops (30_encoding.md R60), and who moves then is open again. A host with
nothing to do leaves the machine as it is. -/
def agentTurn (a : Agent) (s : State) : Host.Outcome State Fault Refusal :=
  match a with
  | .engine => engineTurn s
  | .host =>
    match s.inputs with
    | [] => .next s
    | .waitDone :: rest => .next (pollStatus (.waitDone :: rest) rest s)
    | e :: rest => handle e (s.setInputs rest)

/-- The move gives the engine its turn: the engine moves, or an explicit turn of the engine stands next in the schedule. -/
def Agent.movesEngine (a : Agent) (s : State) : Prop := a = .engine ∨ ∃ rest, s.inputs = .engine :: rest

/-- `run` is an execution without end in which `choice k` names the agent that moves at point `k`. -/
def Execution (choice : Nat → Agent) (run : Nat → State) : Prop := ∀ k, agentTurn (choice k) (run k) = .next (run (k + 1))

end Sys2Proof.Machine
end

