-- ==== Sys2Proof/Safety.lean ====
section
/-! DEFINITION. The launch premises of 70_reset_and_hazards.md R120, the end of a run (R118), and the invariant of the machine. -/

namespace Sys2Proof.Machine

/-- `NoFault` (R120): no model fault is recorded. -/
def State.noFault (s : State) : Bool := s.faults == FaultBits.clear

/-- `NothingInFlight` (R120), and the block is quiescent (R118): JOB = None. -/
def State.quiescent (s : State) : Bool := s.job.isNone

/-- `CleanEntry` (R120): the block is in the state RESET leaves. -/
def State.cleanEntry (s : State) : Bool :=
  s.quiescent && s.status == 0#32 && s.srcAddr == 0#32 && s.srcLen == 0#32 && s.dstAddr == 0#32 && s.outLen == 0#32

/-- `OrdinaryWindows` (R120) for the job a command would start now: every window byte is admitted, ordinary memory. -/
def State.ordinaryWindows (s : State) (i : Instr) : Bool :=
  jobAdmitted s.platform (s.latch i) && jobOrdinary s.platform (s.latch i)

/-! ### The launch premises about a whole execution (R120) -/

/-- `NoFault` (R120) throughout an execution. -/
def NoFault (run : Nat → State) : Prop := ∀ k, (run k).noFault = true

/-- `OrdinaryWindows` (R120) for every window the program uses: at every point of the execution, every window byte of the job in
flight is admitted, ordinary memory. -/
def OrdinaryWindows (run : Nat → State) : Prop :=
  ∀ k j, (run k).job = some j → jobAdmitted (run k).platform j = true ∧ jobOrdinary (run k).platform j = true

/-- `FairEngine` (R120, R117): the engine's step is weakly fair. It is enabled exactly while JOB = Some(_); enabled from some
point on for ever, it is taken at or after that point. -/
def FairEngine (choice : Nat → Agent) (run : Nat → State) : Prop :=
  ∀ k, (∀ m, k ≤ m → (run m).job ≠ none) → ∃ m, k ≤ m ∧ (choice m).movesEngine (run m)

/-- The host goes on running its program. R117 leaves this unsaid where it says that a wait ends (log entry 19). -/
def HostRuns (choice : Nat → Agent) : Prop := ∀ k, ∃ m, k ≤ m ∧ choice m = .host

/-- Start order (20_memory.md R43 item 1): where a job is in flight since the CMD write at point `k`, with no model fault
recorded, the engine's reads of its source window give the bytes that memory held at that CMD write. -/
def StartOrder (run : Nat → State) : Prop :=
  ∀ k m j, k ≤ m → (run k).job = none → (∀ i, k < i → i ≤ m → (run i).job = some j ∧ (run i).noFault = true) →
    Memory.read (run m).mem j.src.toNat j.n.toNat = Memory.read (run k).mem j.src.toNat j.n.toNat

/-- Completion order (R43 item 2): with DONE = 1 and JOB = None at point `k`, and neither a new job nor a host store to the
address since, a host load (of an address outside the register window, which records no fault) gives the byte that memory held
at `k`, with every engine write of the ended job performed. -/
def CompletionOrder (choice : Nat → Agent) (run : Nat → State) : Prop :=
  ∀ k m (a : Word) rest, k ≤ m → (run k).done = true → (∀ i, k ≤ i → i ≤ m → (run i).job = none) →
    (∀ i, k ≤ i → i < m → choice i = .host → ∀ b rest, (run i).inputs ≠ .store a b :: rest) →
    choice m = .host → (run m).inputs = .load a :: rest → Platform.inRegWindow (run m).platform a.toNat = false →
    (run (m + 1)).reply = some (.byte (Memory.get (run k).mem a.toNat))

/-- `PlatformOrdering` (R120): the ordering of R43 at the CMD write and at the STATUS read that returns DONE = 1. Every
execution of the model over memory in canonical form has it (`execution_platformOrdering`), as R43 says ("the model assumes a coherent, ordered host"): the
model does not represent a platform without it (R121 `CoherenceAssumed`, log entry 18). -/
def PlatformOrdering (choice : Nat → Agent) (run : Nat → State) : Prop := StartOrder run ∧ CompletionOrder choice run

/-! ### Runs of `step` -/

/-- The end of a run (R118): the host has nothing more to do, the block is quiescent, no model fault is recorded. -/
def State.runOver (s : State) : Bool := s.inputs.isEmpty && s.quiescent && s.noFault

/-- `k` steps of the machine, to the first that stops. -/
def steps (k : Nat) (s : State) : Host.Outcome State Fault Refusal :=
  match k with
  | 0 => .next s
  | k + 1 =>
    match step s with
    | .next t => steps k t
    | .fault f => .fault f
    | .refused r => .refused r

/-- JOB and the registers agree (10_state.md R22, R25): JOB = Some exactly when BUSY = 1; the operands of a job in flight are the
ones the registers hold, its windows passed the window rule, and OUT_LEN is 0. -/
def State.jobAgrees (s : State) : Bool :=
  match s.job with
  | none => !s.busy
  | some j => s.busy && j == s.latch j.op && s.windowOK j.op && s.outLen == 0#32

/-- OUT_LEN is not 0 only after a success (10_state.md R19). -/
def State.lengthAgrees (s : State) : Bool := s.outLen == 0#32 || s.status == statusWord false true .ok

/-- The invariant of the machine: memory is in canonical form, STATUS is a legal combination (10_state.md R15), JOB and OUT_LEN
agree with the registers. -/
abbrev State.Inv (s : State) : Prop :=
  Memory.wf s.mem = true ∧ statusLegal s.status = true ∧ s.jobAgrees = true ∧ s.lengthAgrees = true

end Sys2Proof.Machine
end

