-- ==== Sys2Proof/Certificates/Slice0/Obligations.lean ====
section
/-! DEFINITION. The statements for the provers, from the numbered rules of spec/. -/

open Sys2Proof Sys2Proof.Machine

/-! ## Command words -/

/-- 30_encoding.md R50: the decoder is total, and tells the two legal words from every other one. -/
def Obligations.CommandDecoderIsTotal : Prop :=
  ∀ w : Word,
    (cmdDecode w = .command .encode ↔ w = 0x00000001#32) ∧ (cmdDecode w = .command .decode ↔ w = 0x00000002#32) ∧
      (cmdDecode w = .illegal ↔ w ≠ 0x00000001#32 ∧ w ≠ 0x00000002#32)

/-- 30_encoding.md R49: the encoder and the decoder agree, both ways. -/
def Obligations.EncodeAndDecodeAgree : Prop :=
  (∀ i : Instr, i.wf = true → cmdDecode (encode i) = .command i) ∧
    ∀ (w : Word) (i : Instr), cmdDecode w = .command i → encode i = w

/-- 30_encoding.md R48, R55: a word is legal exactly when RSV is 0 and OP is 0x1 or 0x2, and then OP tells the command. -/
def Obligations.FieldsDecideTheCommand : Prop :=
  ∀ w : Word,
    ((CmdFields.ofWord w).wf = true ↔ ∃ i, cmdDecode w = .command i) ∧
      (cmdDecode w = .command .encode ↔ w >>> 4 = 0#32 ∧ (CmdFields.ofWord w).op = 0x1#4) ∧
      (cmdDecode w = .command .decode ↔ w >>> 4 = 0#32 ∧ (CmdFields.ofWord w).op = 0x2#4)

/-- Words written out from 30_encoding.md R49 and R55 (the rows of 95_test_vectors.md section 2.8). -/
def Obligations.WordsOfTheOpcodeMap : Prop :=
  cmdDecode 0x00000001#32 = .command .encode ∧ cmdDecode 0x00000002#32 = .command .decode ∧
    cmdDecode 0x00000000#32 = .illegal ∧ cmdDecode 0x00000003#32 = .illegal ∧ cmdDecode 0x0000000F#32 = .illegal ∧
    cmdDecode 0x00000011#32 = .illegal ∧ cmdDecode 0x00000012#32 = .illegal ∧ cmdDecode 0x80000001#32 = .illegal ∧
    cmdDecode 0xFFFFFFFF#32 = .illegal

/-! ## Issue -/

/-- 30_encoding.md R52, the issue procedure of a host write of any word to CMD, case by case. -/
def Obligations.IssueProcedure : Prop :=
  ∀ (s : State) (w : Word),
    (s.busy = true → regWrite 32 (Reg.offset .cmd) w s = .next s) ∧
    (s.busy = false → cmdDecode w = .illegal →
      regWrite 32 (Reg.offset .cmd) w s = .next { s with outLen := 0#32, status := 0x00000022#32 }) ∧
    (∀ i, s.busy = false → cmdDecode w = .command i →
      windowOK (Platform.regBase s.platform).toNat i s.srcAddr.toNat s.srcLen.toNat s.dstAddr.toNat = false →
      regWrite 32 (Reg.offset .cmd) w s = .next { s with outLen := 0#32, status := 0x00000032#32 }) ∧
    (∀ i, s.busy = false → cmdDecode w = .command i →
      windowOK (Platform.regBase s.platform).toNat i s.srcAddr.toNat s.srcLen.toNat s.dstAddr.toNat = true →
      regWrite 32 (Reg.offset .cmd) w s = .next
        { s with
          outLen := 0#32
          job := some { op := i, src := s.srcAddr, n := s.srcLen, dst := s.dstAddr, wlen := wlen i s.srcLen.toNat }
          status := 0x00000001#32 })

/-- 41_encode.md R77, issue of ENCODE: with BUSY = 0 and the window rule satisfied the command is accepted, and the next state is
the old one with JOB, STATUS and OUT_LEN changed and nothing else. -/
def Obligations.EncodeIsAccepted : Prop :=
  ∀ s : State, s.busy = false →
    windowOK (Platform.regBase s.platform).toNat .encode s.srcAddr.toNat s.srcLen.toNat s.dstAddr.toNat = true →
    exec .encode s = .next
      { s with
        outLen := 0#32
        job := some
          { op := .encode, src := s.srcAddr, n := s.srcLen, dst := s.dstAddr, wlen := 4 * ((s.srcLen.toNat + 2) / 3) }
        status := 0x00000001#32 }

/-- 42_decode.md R93, issue of DECODE, in the same form. -/
def Obligations.DecodeIsAccepted : Prop :=
  ∀ s : State, s.busy = false →
    windowOK (Platform.regBase s.platform).toNat .decode s.srcAddr.toNat s.srcLen.toNat s.dstAddr.toNat = true →
    exec .decode s = .next
      { s with
        outLen := 0#32
        job := some { op := .decode, src := s.srcAddr, n := s.srcLen, dst := s.dstAddr, wlen := 3 * (s.srcLen.toNat / 4) }
        status := 0x00000001#32 }

/-- 60_exceptions.md R98: a legal word whose windows are refused ends at once with WINDOW_ERROR; memory and the parameter
registers keep their values. -/
def Obligations.WindowErrorAtIssue : Prop :=
  ∀ (i : Instr) (s : State), s.busy = false →
    windowOK (Platform.regBase s.platform).toNat i s.srcAddr.toNat s.srcLen.toNat s.dstAddr.toNat = false →
    regWrite 32 (Reg.offset .cmd) (encode i) s = .next { s with outLen := 0#32, status := 0x00000032#32 }

/-- 30_encoding.md R55: every word but the two legal ones, written while BUSY = 0, ends at once with ILLEGAL_COMMAND. -/
def Obligations.IllegalWordEndsAtOnce : Prop :=
  ∀ (w : Word) (s : State), w ≠ 0x00000001#32 → w ≠ 0x00000002#32 → s.busy = false →
    regWrite 32 (Reg.offset .cmd) w s = .next { s with outLen := 0#32, status := 0x00000022#32 }

/-- The frame of both commands' CMD write (30_encoding.md R52): whatever the outcome, only JOB, STATUS and OUT_LEN may change. -/
def Obligations.CommandFrame : Prop :=
  ∀ (i : Instr) (s t : State), exec i s = .next t →
    t.srcAddr = s.srcAddr ∧ t.srcLen = s.srcLen ∧ t.dstAddr = s.dstAddr ∧
      (∀ a, Memory.get t.mem a = Memory.get s.mem a) ∧ t.faults = s.faults ∧ t.platform = s.platform ∧
      t.inputs = s.inputs ∧ t.reply = s.reply ∧ t.draws = s.draws

/-- Both commands answer a next state in every state (30_encoding.md R52; 60_exceptions.md R101). -/
def Obligations.CommandsNeverStop : Prop :=
  ∀ (i : Instr) (s : State), ∃ t, exec i s = .next t

/-- 20_memory.md R33 in terms of addresses: a command passes the window rule exactly when its windows end at or below 2^32, its
result length fits OUT_LEN, and no address lies in two of the source window, the destination window, the register window. -/
def Obligations.WindowRuleMeansNoSharedByte : Prop :=
  ∀ (base : Nat) (i : Instr) (s n d : Nat),
    windowOK base i s n d = true ↔
      s + n ≤ 2 ^ 32 ∧ d + wlen i n ≤ 2 ^ 32 ∧ wlen i n < 2 ^ 32 ∧
        ∀ x, ¬ (inWindow s n x = true ∧ inWindow d (wlen i n) x = true) ∧
          ¬ (inWindow s n x = true ∧ base ≤ x ∧ x < base + 0x40) ∧
          ¬ (inWindow d (wlen i n) x = true ∧ base ≤ x ∧ x < base + 0x40)

/-- 20_memory.md R33, R77: `n = 0` always passes; an ENCODE of more than 3221225469 bytes is always refused. -/
def Obligations.WindowRuleAtTheEnds : Prop :=
  (∀ (base : Nat) (i : Instr) (s d : Word), windowOK base i s.toNat 0 d.toNat = true) ∧
    ∀ base s n d : Nat, 3221225469 < n → windowOK base .encode s n d = false

/-! ## The Alphabet Table -/

/-- 40_alphabet.md R66: the lookup law, both ways. -/
def Obligations.LookupLaw : Prop :=
  (∀ i : Sextet, indexOf (valueOf i) = .value i) ∧ ∀ (c : Byte) (i : Sextet), indexOf c = .value i → valueOf i = c

/-- 40_alphabet.md R62: the 64 entries of FWD are distinct, and none is the pad code. -/
def Obligations.ForwardTableIsInjective : Prop :=
  (∀ i j : Sextet, valueOf i = valueOf j → i = j) ∧ (∀ i : Sextet, valueOf i ≠ 0x3D#8) ∧ fwdTable.length = 64

/-- 40_alphabet.md R61: FWD in closed form. -/
def Obligations.ForwardTableInClosedForm : Prop :=
  ∀ i : Sextet,
    valueOf i =
      if i.toNat ≤ 25 then BitVec.ofNat 8 (0x41 + i.toNat)
      else if i.toNat ≤ 51 then BitVec.ofNat 8 (0x61 + (i.toNat - 26))
      else if i.toNat ≤ 61 then BitVec.ofNat 8 (0x30 + (i.toNat - 52))
      else if i.toNat = 62 then 0x2B#8 else 0x2F#8

/-- 40_alphabet.md R64: what REV answers for every byte. -/
def Obligations.ReverseTableClassifies : Prop :=
  ∀ c : Byte,
    (∀ i, indexOf c = .value i ↔ c = valueOf i) ∧ (indexOf c = .pad ↔ c = 0x3D#8) ∧
      (indexOf c = .invalid ↔ (∀ i, c ≠ valueOf i) ∧ c ≠ 0x3D#8)

/-! ## The encoder -/

/-- 30_encoding.md R53, 20_memory.md R35: the four sextets are the 6-bit slices of the 24-bit group, most significant first; a
short final group (41_encode.md R69, R70) is the full group with the missing bytes 0, cut to its sextets. -/
def Obligations.SextetsAreSlicesOfTheGroup : Prop :=
  ∀ b0 b1 b2 : Byte,
    encGroup3 b0 b1 b2 =
      [(b0 ++ b1 ++ b2).extractLsb' 18 6, (b0 ++ b1 ++ b2).extractLsb' 12 6, (b0 ++ b1 ++ b2).extractLsb' 6 6,
        (b0 ++ b1 ++ b2).extractLsb' 0 6] ∧
    encGroup2 b0 b1 = (encGroup3 b0 b1 0#8).take 3 ∧ encGroup1 b0 = (encGroup3 b0 0#8 0#8).take 2

/-- 41_encode.md R71, 42_decode.md R87: no shift of the datapath loses a bit: the sextets and the bytes in arithmetic. -/
def Obligations.DatapathLosesNoBit : Prop :=
  (∀ b0 b1 b2 : Byte,
    (encV0 b0).toNat = b0.toNat / 4 ∧ (encV1 b0 b1).toNat = b0.toNat % 4 * 16 + b1.toNat / 16 ∧
      (encV2 b1 b2).toNat = b1.toNat % 16 * 4 + b2.toNat / 64 ∧ (encV3 b2).toNat = b2.toNat % 64) ∧
  ∀ v0 v1 v2 v3 : Sextet,
    (decB0 v0 v1).toNat = v0.toNat * 4 + v1.toNat / 16 ∧ (decB1 v1 v2).toNat = v1.toNat % 16 * 16 + v2.toNat / 4 ∧
      (decB2 v2 v3).toNat = v2.toNat % 4 * 64 + v3.toNat

/-- 41_encode.md R72: `Enc` works group by group: group k of the input gives characters 4k to 4k+3, and what the input leaves
after its full groups gives the padded last four. -/
def Obligations.EncWorksGroupByGroup : Prop :=
  enc [] = [] ∧
  ∀ b : List Byte,
    (∀ k, k < b.length / 3 →
      ((enc b).drop (4 * k)).take 4 =
        (encGroup3 (b.getD (3 * k) 0) (b.getD (3 * k + 1) 0) (b.getD (3 * k + 2) 0)).map valueOf) ∧
    (b.length % 3 = 0 → (enc b).drop (4 * (b.length / 3)) = []) ∧
    (b.length % 3 = 2 →
      (enc b).drop (4 * (b.length / 3)) =
        (encGroup2 (b.getD (3 * (b.length / 3)) 0) (b.getD (3 * (b.length / 3) + 1) 0)).map valueOf ++ [0x3D#8]) ∧
    (b.length % 3 = 1 →
      (enc b).drop (4 * (b.length / 3)) =
        (encGroup1 (b.getD (3 * (b.length / 3)) 0)).map valueOf ++ [0x3D#8, 0x3D#8])

/-- 41_encode.md R73: the output length, and every output byte is a character of the alphabet or the pad. -/
def Obligations.EncLengthAndAlphabet : Prop :=
  ∀ b : List Byte,
    (enc b).length = 4 * ((b.length + 2) / 3) ∧ ∀ c ∈ enc b, c = 0x3D#8 ∨ ∃ i : Sextet, c = valueOf i

/-- 41_encode.md R74: the pads of `Enc(b)` are exactly its last `(3 - len(b) mod 3) mod 3` bytes. -/
def Obligations.EncPadsAreTrailing : Prop :=
  ∀ b : List Byte, ∃ body : List Byte,
    enc b = body ++ List.replicate ((3 - b.length % 3) % 3) 0x3D#8 ∧ 0x3D#8 ∉ body

/-! ## The decoder -/

/-- 30_encoding.md R54, 42_decode.md R82: the legal pad patterns of a group are the three of the table, a pad in the final
group only. -/
def Obligations.LegalPadPatterns : Prop :=
  ∀ (final : Bool) (e1 e2 e3 e4 : RevEntry),
    padOK final e1 e2 e3 e4 = true ↔
      ∃ v0 v1, e1 = .value v0 ∧ e2 = .value v1 ∧
        ((∃ v2 v3, e3 = .value v2 ∧ e4 = .value v3) ∨ (final = true ∧ (∃ v2, e3 = .value v2) ∧ e4 = .pad) ∨
          (final = true ∧ e3 = .pad ∧ e4 = .pad))

/-- 60_exceptions.md R96, 42_decode.md R88: `Dec` fails exactly on the three causes: (a) the length, (b) a byte that is no symbol
and no pad, (c) a group whose pad pattern is not legal where it stands. -/
def Obligations.DecFailsOnTheThreeCauses : Prop :=
  ∀ t : List Byte,
    dec t = .invalidInput ↔
      t.length % 4 ≠ 0 ∨ (∃ c ∈ t, indexOf c = .invalid) ∨
        (t.length % 4 = 0 ∧ ∃ g, g < t.length / 4 ∧
          padOK (decide (g + 1 = t.length / 4)) (indexOf (t.getD (4 * g) 0)) (indexOf (t.getD (4 * g + 1) 0))
            (indexOf (t.getD (4 * g + 2) 0)) (indexOf (t.getD (4 * g + 3) 0)) = false)

/-- 42_decode.md R88, R89: a text that decodes gives group g at bytes 3g, and its length is three for each group less the pads,
of which there are at most two. -/
def Obligations.DecWorksGroupByGroup : Prop :=
  ∀ t out : List Byte, dec t = .ok out →
    (∀ g, g < t.length / 4 →
      (out.drop (3 * g)).take 3 =
        decGroup (indexOf (t.getD (4 * g) 0)) (indexOf (t.getD (4 * g + 1) 0)) (indexOf (t.getD (4 * g + 2) 0))
          (indexOf (t.getD (4 * g + 3) 0))) ∧
    out.length + t.count 0x3D#8 = 3 * (t.length / 4) ∧ t.count 0x3D#8 ≤ 2

/-- 42_decode.md R91 (1): `Dec(Enc(b)) = Ok(b)` for every byte sequence. -/
def Obligations.DecodingInvertsEncoding : Prop :=
  ∀ b : List Byte, dec (enc b) = .ok b

/-- 42_decode.md R91 (2) and (3): a canonical text is the encoding of its decoding; any other differs from it in exactly one
character, the one before its pads. -/
def Obligations.ReencodingATextThatDecodes : Prop :=
  ∀ t out : List Byte, dec t = .ok out →
    (canonical t = true → enc out = t) ∧
    (canonical t = false → (enc out).length = t.length ∧
      ∀ i, i < t.length → ((enc out).getD i 0 ≠ t.getD i 0 ↔ i + 1 + t.count 0x3D#8 = t.length))

/-- 42_decode.md R90: every output of `Enc` is canonical. -/
def Obligations.EncodedTextIsCanonical : Prop :=
  ∀ b : List Byte, canonical (enc b) = true

/-! ## Completion -/

/-- 41_encode.md R78: the ENCODE completion step, for a job in flight. With every window byte admitted, ordinary memory, the
destination window holds `Enc` of the source window, no other byte changes, OUT_LEN, STATUS and JOB are as the rule says; with a
window byte not admitted the fault is recorded. -/
def Obligations.EncodeCompletion : Prop :=
  ∀ (s : State) (j : Job), s.Inv → s.job = some j → j.op = .encode →
    (jobAdmitted s.platform j = true → jobOrdinary s.platform j = true →
      ∃ t, engineTurn s = .next t ∧
        Memory.read t.mem j.dst.toNat j.wlen = enc (Memory.read s.mem j.src.toNat j.n.toNat) ∧
        (∀ a, inWindow j.dst.toNat j.wlen a = false → Memory.get t.mem a = Memory.get s.mem a) ∧
        t.outLen.toNat = (enc (Memory.read s.mem j.src.toNat j.n.toNat)).length ∧ t.status = 0x00000002#32 ∧
        t.job = none ∧ t.srcAddr = s.srcAddr ∧ t.srcLen = s.srcLen ∧ t.dstAddr = s.dstAddr ∧ t.faults = s.faults ∧
        t.platform = s.platform ∧ t.inputs = s.inputs ∧ t.reply = s.reply ∧ t.draws = s.draws) ∧
    (jobAdmitted s.platform j = false → ∃ t, engineTurn s = .next t ∧ t.faults.engineBusError = true)

/-- 42_decode.md R94 with `r = Ok(out)`, 20_memory.md R40: exactly `len(out)` bytes are written; the rest of the destination
window and all other memory keep their bytes. -/
def Obligations.DecodeCompletionWithBytes : Prop :=
  ∀ (s : State) (j : Job) (out : List Byte), s.Inv → s.job = some j → j.op = .decode →
    jobAdmitted s.platform j = true → jobOrdinary s.platform j = true →
    dec (Memory.read s.mem j.src.toNat j.n.toNat) = .ok out →
      ∃ t, engineTurn s = .next t ∧ out.length ≤ j.wlen ∧
        Memory.read t.mem j.dst.toNat out.length = out ∧
        (∀ a, inWindow j.dst.toNat out.length a = false → Memory.get t.mem a = Memory.get s.mem a) ∧
        t.outLen.toNat = out.length ∧ t.status = 0x00000002#32 ∧
        t.job = none ∧ t.srcAddr = s.srcAddr ∧ t.srcLen = s.srcLen ∧ t.dstAddr = s.dstAddr ∧ t.faults = s.faults ∧
        t.platform = s.platform ∧ t.inputs = s.inputs ∧ t.reply = s.reply ∧ t.draws = s.draws

/-- 42_decode.md R94 with `r = Err(INVALID_INPUT)`, 20_memory.md R40: the code is reported, OUT_LEN is 0, no address outside the
destination window changes. The window's bytes are draws, of which nothing is claimed. -/
def Obligations.DecodeCompletionWithInvalidInput : Prop :=
  ∀ (s : State) (j : Job), s.Inv → s.job = some j → j.op = .decode →
    jobAdmitted s.platform j = true → jobOrdinary s.platform j = true →
    dec (Memory.read s.mem j.src.toNat j.n.toNat) = .invalidInput →
      ∃ t, engineTurn s = .next t ∧
        (∀ a, inWindow j.dst.toNat j.wlen a = false → Memory.get t.mem a = Memory.get s.mem a) ∧
        t.outLen = 0#32 ∧ t.status = 0x00000012#32 ∧
        t.job = none ∧ t.srcAddr = s.srcAddr ∧ t.srcLen = s.srcLen ∧ t.dstAddr = s.dstAddr ∧ t.faults = s.faults ∧
        t.platform = s.platform ∧ t.inputs = s.inputs ∧ t.reply = s.reply ∧ t.draws = s.draws + j.wlen

/-- 20_memory.md R30, 60_exceptions.md R99, R101: a window byte the platform does not admit records EngineBusError, which comes
before any code. That every window byte counts and that nothing else changes are the model's choices (log entries 5, 6). -/
def Obligations.BusErrorIsRecorded : Prop :=
  ∀ (s : State) (j : Job), s.job = some j →
    ((∃ a, inWindow j.src.toNat j.n.toNat a = true ∧ memAdmits s.platform a .read = false) ∨
      ∃ a, inWindow j.dst.toNat j.wlen a = true ∧ memAdmits s.platform a .write = false) →
    engineTurn s = .next { s with faults := { s.faults with engineBusError := true } }

/-- 10_state.md R26, 20_memory.md R43 item 3: without a job the engine does nothing. -/
def Obligations.EngineIsQuietWithoutAJob : Prop :=
  ∀ s : State, s.Inv → s.busy = false → engineTurn s = .next s

/-- 41_encode.md R77, the whole ENCODE command: from an idle block with acceptable, ordinary windows, the CMD write and then the
engine's turn leave the Base64 text in the destination window, its length in OUT_LEN, and OK in STATUS. -/
def Obligations.EncodeCommandDeliversTheText : Prop :=
  ∀ s : State, s.Inv → s.busy = false →
    windowOK (Platform.regBase s.platform).toNat .encode s.srcAddr.toNat s.srcLen.toNat s.dstAddr.toNat = true →
    s.ordinaryWindows .encode = true →
    ∃ t u, exec .encode s = .next t ∧ t.status = 0x00000001#32 ∧ engineTurn t = .next u ∧
      u.status = 0x00000002#32 ∧ u.outLen.toNat = 4 * ((s.srcLen.toNat + 2) / 3) ∧
      Memory.read u.mem s.dstAddr.toNat u.outLen.toNat = enc (Memory.read s.mem s.srcAddr.toNat s.srcLen.toNat) ∧
      (∀ a, inWindow s.dstAddr.toNat u.outLen.toNat a = false → Memory.get u.mem a = Memory.get s.mem a) ∧
      u.job = none ∧ u.srcAddr = s.srcAddr ∧ u.srcLen = s.srcLen ∧ u.dstAddr = s.dstAddr ∧ u.faults = s.faults

/-- 42_decode.md R93, the whole DECODE command, for a text that decodes. -/
def Obligations.DecodeCommandDeliversTheBytes : Prop :=
  ∀ (s : State) (out : List Byte), s.Inv → s.busy = false →
    windowOK (Platform.regBase s.platform).toNat .decode s.srcAddr.toNat s.srcLen.toNat s.dstAddr.toNat = true →
    s.ordinaryWindows .decode = true →
    dec (Memory.read s.mem s.srcAddr.toNat s.srcLen.toNat) = .ok out →
    ∃ t u, exec .decode s = .next t ∧ t.status = 0x00000001#32 ∧ engineTurn t = .next u ∧
      u.status = 0x00000002#32 ∧ u.outLen.toNat = out.length ∧
      Memory.read u.mem s.dstAddr.toNat out.length = out ∧
      (∀ a, inWindow s.dstAddr.toNat out.length a = false → Memory.get u.mem a = Memory.get s.mem a) ∧
      u.job = none ∧ u.srcAddr = s.srcAddr ∧ u.srcLen = s.srcLen ∧ u.dstAddr = s.dstAddr ∧ u.faults = s.faults

/-- 42_decode.md R93, the whole DECODE command, for a text that does not decode. -/
def Obligations.DecodeCommandReportsInvalidInput : Prop :=
  ∀ s : State, s.Inv → s.busy = false →
    windowOK (Platform.regBase s.platform).toNat .decode s.srcAddr.toNat s.srcLen.toNat s.dstAddr.toNat = true →
    s.ordinaryWindows .decode = true →
    dec (Memory.read s.mem s.srcAddr.toNat s.srcLen.toNat) = .invalidInput →
    ∃ t u, exec .decode s = .next t ∧ t.status = 0x00000001#32 ∧ engineTurn t = .next u ∧
      u.status = 0x00000012#32 ∧ u.outLen = 0#32 ∧
      (∀ a, inWindow s.dstAddr.toNat (3 * (s.srcLen.toNat / 4)) a = false → Memory.get u.mem a = Memory.get s.mem a) ∧
      u.job = none ∧ u.srcAddr = s.srcAddr ∧ u.srcLen = s.srcLen ∧ u.dstAddr = s.dstAddr ∧ u.faults = s.faults

/-- The round trip through memory (42_decode.md R91 (1), R77, R93): the host encodes `n` bytes at `a` into a window at `d`, then
decodes that text into a window at `e`; ten events later the bytes at `e` are the bytes that were at `a`. -/
def Obligations.RoundTripThroughMemory : Prop :=
  ∀ (s : State) (a n d e : Word) (rest : List Event), s.Inv → s.busy = false →
    windowOK (Platform.regBase s.platform).toNat .encode a.toNat n.toNat d.toNat = true →
    windowOK (Platform.regBase s.platform).toNat .decode d.toNat (wlen .encode n.toNat) e.toNat = true →
    (∀ x, inWindow a.toNat n.toNat x = true → memAdmits s.platform x .read = true ∧ isOrdinary s.platform x = true) →
    (∀ x, inWindow d.toNat (wlen .encode n.toNat) x = true →
      memAdmits s.platform x .read = true ∧ memAdmits s.platform x .write = true ∧ isOrdinary s.platform x = true) →
    (∀ x, inWindow e.toNat (n.toNat + 2) x = true →
      memAdmits s.platform x .write = true ∧ isOrdinary s.platform x = true) →
    ∃ u, steps 10
        { s with
          inputs := command .encode a n d ++ [.engine] ++
            command .decode d (BitVec.ofNat 32 (wlen .encode n.toNat)) e ++ [.engine] ++ rest } = .next u ∧
      u.status = 0x00000002#32 ∧ u.outLen = n ∧ u.inputs = rest ∧ u.faults = s.faults ∧
      Memory.read u.mem e.toNat n.toNat = Memory.read s.mem a.toNat n.toNat

/-- 41_encode.md R75, 42_decode.md R92: the result of a job depends only on the bytes of its source window: two machines that
differ in all other memory, and in their draws, schedule, replies and faults, report the same and leave the same result. -/
def Obligations.ResultDependsOnlyOnTheSourceBytes : Prop :=
  ∀ (s s' t t' : State) (j : Job), s.Inv → s'.Inv → s.job = some j → s'.job = some j → s.platform = s'.platform →
    jobAdmitted s.platform j = true →
    Memory.read s.mem j.src.toNat j.n.toNat = Memory.read s'.mem j.src.toNat j.n.toNat →
    engineTurn s = .next t → engineTurn s' = .next t' →
    t.status = t'.status ∧ t.outLen = t'.outLen ∧
      Memory.read t.mem j.dst.toNat t.outLen.toNat = Memory.read t'.mem j.dst.toNat t'.outLen.toNat

/-! ## The register window -/

/-- 10_state.md R13, R14, R20: what a read of each register returns. Only the host's datum changes. -/
def Obligations.RegisterReads : Prop :=
  ∀ s : State,
    regRead 32 0x00#6 s = .next { s with reply := some (.word 0#32) } ∧
    regRead 32 0x04#6 s = .next { s with reply := some (.word s.status) } ∧
    regRead 32 0x08#6 s = .next { s with reply := some (.word s.srcAddr) } ∧
    regRead 32 0x0C#6 s = .next { s with reply := some (.word s.srcLen) } ∧
    regRead 32 0x10#6 s = .next { s with reply := some (.word s.dstAddr) } ∧
    regRead 32 0x14#6 s = .next { s with reply := some (.word s.outLen) } ∧
    ∀ off : BitVec 6, 0x18 ≤ off.toNat → off.toNat % 4 = 0 → regRead 32 off s = .next { s with reply := some (.word 0#32) }

/-- 10_state.md R16, R17, R18, R15, R19: with BUSY = 0 a write to a parameter register is stored; a write to STATUS or OUT_LEN
is ignored. -/
def Obligations.RegisterWrites : Prop :=
  ∀ (s : State) (v : Word), s.busy = false →
    regWrite 32 0x08#6 v s = .next { s with srcAddr := v } ∧ regWrite 32 0x0C#6 v s = .next { s with srcLen := v } ∧
    regWrite 32 0x10#6 v s = .next { s with dstAddr := v } ∧ regWrite 32 0x04#6 v s = .next s ∧
    regWrite 32 0x14#6 v s = .next s

/-- 10_state.md R20: reserved offsets read 0 and ignore writes; no reserved field of STATUS is ever 1. -/
def Obligations.ReservedOffsetsAndBits : Prop :=
  ∀ s : State, s.Inv →
    (∀ (off : BitVec 6) (v : Word), 0x18 ≤ off.toNat → off.toNat % 4 = 0 →
      regWrite 32 off v s = .next s ∧ regRead 32 off s = .next { s with reply := some (.word 0#32) }) ∧
    s.status &&& 0xFFFFFF0C#32 = 0#32

/-- 10_state.md R22: while BUSY = 1 every register write is ignored, and reads return the current values: STATUS 0x00000001, the
latched operands, OUT_LEN 0. -/
def Obligations.RegisterAccessWhileBusy : Prop :=
  ∀ s : State, s.Inv → s.busy = true →
    (∀ (off : BitVec 6) (v : Word), off.toNat % 4 = 0 → regWrite 32 off v s = .next s) ∧
    ∃ j, s.job = some j ∧ regRead 32 0x04#6 s = .next { s with reply := some (.word 0x00000001#32) } ∧
      regRead 32 0x08#6 s = .next { s with reply := some (.word j.src) } ∧
      regRead 32 0x0C#6 s = .next { s with reply := some (.word j.n) } ∧
      regRead 32 0x10#6 s = .next { s with reply := some (.word j.dst) } ∧
      regRead 32 0x14#6 s = .next { s with reply := some (.word 0#32) }

/-- 10_state.md R21: an access of another width or at another offset records UnsupportedRegisterAccess and leaves every register
(and JOB and memory) unchanged. -/
def Obligations.UnsupportedRegisterAccess : Prop :=
  ∀ (s : State) (width : Nat) (off : BitVec 6) (v : Word), width ≠ 32 ∨ off.toNat % 4 ≠ 0 →
    regWrite width off v s = .next { s with faults := { s.faults with unsupportedRegisterAccess := true } } ∧
    ∃ t, regRead width off s = .next t ∧ t.faults = { s.faults with unsupportedRegisterAccess := true } ∧
      t.status = s.status ∧ t.srcAddr = s.srcAddr ∧ t.srcLen = s.srcLen ∧ t.dstAddr = s.dstAddr ∧ t.outLen = s.outLen ∧
      t.job = s.job ∧ t.mem = s.mem

/-- 10_state.md R15, R25: STATUS holds one of its six words, BUSY and DONE are never both 1, JOB = Some exactly when BUSY = 1. -/
def Obligations.StatusWordsAndJob : Prop :=
  ∀ s : State, s.Inv →
    (s.status = 0x00000000#32 ∨ s.status = 0x00000001#32 ∨ s.status = 0x00000002#32 ∨ s.status = 0x00000012#32 ∨
      s.status = 0x00000022#32 ∨ s.status = 0x00000032#32) ∧
    ¬ (s.busy = true ∧ s.done = true) ∧ (s.job ≠ none ↔ s.busy = true)

/-! ## Memory, hazards, reset -/

/-- 70_reset_and_hazards.md R115: a host write into a window of the job in flight records WindowHazard and is applied. -/
def Obligations.HostStoreIntoAnActiveWindow : Prop :=
  ∀ (s : State) (j : Job) (a : Word) (b : Byte), s.Inv → s.job = some j →
    (inWindow j.src.toNat j.n.toNat a.toNat = true ∨ inWindow j.dst.toNat j.wlen a.toNat = true) →
    isOrdinary s.platform a.toNat = true →
    ∃ t, hostStore a b s = .next t ∧ t.faults = { s.faults with windowHazard := true } ∧
      (∀ x, Memory.get t.mem x = if x = a.toNat then b else Memory.get s.mem x) ∧ t = { s with faults := t.faults, mem := t.mem }

/-- 70_reset_and_hazards.md R116: a host read of the active destination window returns a fresh draw, of the active source window
the byte itself. Nothing else changes. -/
def Obligations.HostLoadOfAnActiveWindow : Prop :=
  ∀ (s : State) (j : Job) (a : Word), s.Inv → s.job = some j → isOrdinary s.platform a.toNat = true →
    (inWindow j.dst.toNat j.wlen a.toNat = true →
      hostLoad a s = .next { s with reply := some (.byte (Config.drawByte s.draws)), draws := s.draws + 1 }) ∧
    (inWindow j.src.toNat j.n.toNat a.toNat = true →
      hostLoad a s = .next { s with reply := some (.byte (Memory.get s.mem a.toNat)) })

/-- A host byte access outside the windows of a job in flight (30_encoding.md R59; 20_memory.md R30, R39; 10_state.md R21).
In the register window it records UnsupportedRegisterAccess and leaves the registers, JOB and memory as they were; that it is a
register access is the model's inference (log entry 10), and an unsupported load's datum is left open. At any other address of
ordinary memory, a load returns the byte, a store changes that byte and no other, and a load after it returns the byte stored;
that MemAdmits does not speak of host accesses is the model's inference (log entry 9), unsafe for memory that does not exist. -/
def Obligations.HostByteAccesses : Prop :=
  ∀ (s : State) (a : Word) (b : Byte), s.Inv →
    (∀ j, s.job = some j →
      inWindow j.src.toNat j.n.toNat a.toNat = false ∧ inWindow j.dst.toNat j.wlen a.toNat = false) →
    (Platform.inRegWindow s.platform a.toNat = true →
      hostStore a b s = .next { s with faults := { s.faults with unsupportedRegisterAccess := true } } ∧
      ∃ t, hostLoad a s = .next t ∧
        t = { s with faults := { s.faults with unsupportedRegisterAccess := true }, reply := t.reply }) ∧
    (Platform.inRegWindow s.platform a.toNat = false → isOrdinary s.platform a.toNat = true →
      hostLoad a s = .next { s with reply := some (.byte (Memory.get s.mem a.toNat)) } ∧
      ∃ t, hostStore a b s = .next t ∧ t = { s with mem := t.mem } ∧
        (∀ x, Memory.get t.mem x = if x = a.toNat then b else Memory.get s.mem x) ∧
        hostLoad a t = .next { t with reply := some (.byte b) })

/-- 70_reset_and_hazards.md R110: RESET. Every register and JOB take their reset values, the faults stay recorded, memory outside
the destination window of an aborted job is unchanged, and each byte of that window is a fresh draw. How a draw is written
(Config.drawByte of the counter, which advances by one for each byte and holds still without a job) is the model's choice, log
entry 8; that the draws ask no admission, so that a reset records no fault, is the model's inference, log entry 7. -/
def Obligations.ResetEffect : Prop :=
  ∀ s : State, s.Inv →
    handle .reset s = .next (resetEvent s) ∧
      (resetEvent s).status = 0#32 ∧ (resetEvent s).srcAddr = 0#32 ∧ (resetEvent s).srcLen = 0#32 ∧
      (resetEvent s).dstAddr = 0#32 ∧ (resetEvent s).outLen = 0#32 ∧ (resetEvent s).job = none ∧
      (resetEvent s).faults = s.faults ∧ (resetEvent s).platform = s.platform ∧ (resetEvent s).inputs = s.inputs ∧
      (resetEvent s).reply = s.reply ∧
      (∀ off : BitVec 6, off = 0x00#6 ∨ (0x18 ≤ off.toNat ∧ off.toNat % 4 = 0) →
        regRead 32 off (resetEvent s) = .next { resetEvent s with reply := some (.word 0x00000000#32) }) ∧
      (s.job = none → (resetEvent s).mem = s.mem ∧ (resetEvent s).draws = s.draws) ∧
      ∀ j, s.job = some j →
        (∀ a, inWindow j.dst.toNat j.wlen a = false → Memory.get (resetEvent s).mem a = Memory.get s.mem a) ∧
        (resetEvent s).draws = s.draws + j.wlen ∧
        ∀ i, i < j.wlen → Memory.get (resetEvent s).mem (j.dst.toNat + i) = Config.drawByte (s.draws + i)

/-- 70_reset_and_hazards.md R110, R120: the state the machine starts in. -/
def Obligations.ResetState : Prop :=
  State.reset.status = 0x00000000#32 ∧ State.reset.srcAddr = 0x00000000#32 ∧ State.reset.srcLen = 0x00000000#32 ∧
    State.reset.dstAddr = 0x00000000#32 ∧ State.reset.outLen = 0x00000000#32 ∧ State.reset.job = none ∧
    State.reset.cleanEntry = true ∧ State.reset.noFault = true ∧
    regRead 32 0x04#6 State.reset = .next { State.reset with reply := some (.word 0x00000000#32) }

/-- The invariant of the machine holds at reset. -/
def Obligations.InvariantAtReset : Prop :=
  State.reset.Inv

/-! ## The whole machine -/

/-- A step whose next event is a host write of a legal word to CMD runs that word's command, on the state with the event taken
off the schedule (10_state.md R24, 30_encoding.md R52). -/
def Obligations.StepRunsTheDecodedCommand : Prop :=
  (∀ (s : State) (w : Word) (i : Instr) (rest : List Event),
    s.inputs = wr .cmd w :: rest → cmdDecode w = .command i → step s = exec i { s with inputs := rest }) ∧
  ∀ (s : State) (nbits w : Nat) (i : Instr), nbits ≤ 32 → decodeTableWord nbits w = some i →
    step (s.withFetchWord nbits w) = exec i s

/-- Every step keeps the invariant: memory's canonical form, a legal STATUS, JOB and OUT_LEN that agree with the registers
(10_state.md R15, R19, R22, R25; 20_memory.md R30). -/
def Obligations.EveryStepKeepsTheInvariant : Prop :=
  ∀ s t : State, s.Inv → step s = .next t → t.Inv

/-- 20_memory.md R37, R40: no step changes a byte of memory but the bytes of the destination window of the job in flight and the
one byte a host store names. -/
def Obligations.StepChangesOnlyTheWindowOrTheStoredByte : Prop :=
  ∀ s t : State, s.Inv → step s = .next t → ∀ a, Memory.get t.mem a ≠ Memory.get s.mem a →
    (∃ j, s.job = some j ∧ inWindow j.dst.toNat j.wlen a = true) ∨
      ∃ (addr : Word) (b : Byte) (rest : List Event), s.inputs = .store addr b :: rest ∧ a = addr.toNat

/-- 60_exceptions.md R99: no step clears a recorded model fault. -/
def Obligations.NoStepClearsAFault : Prop :=
  ∀ (s t : State) (f : Fault), step s = .next t → s.faults.has f = true → t.faults.has f = true

/-- 10_state.md R28: STATUS changes only by a CMD write while BUSY = 0, by the engine completing a job, and by RESET. -/
def Obligations.OnlyThreeEventsChangeStatus : Prop :=
  ∀ s t : State, step s = .next t → t.status ≠ s.status →
    (s.busy = false ∧ ∃ (w : Word) (rest : List Event), s.inputs = wr .cmd w :: rest) ∨
    (s.job ≠ none ∧ t.job = none ∧ (s.inputs = [] ∨ ∃ rest, s.inputs = .engine :: rest)) ∨
    ∃ rest, s.inputs = .reset :: rest

/-- No step changes the OPEN parameters of 00_scope.md R6. R6 says that they are OPEN, named arguments of the model; that they are
a field of State which stays the same is the model's choice, log entry 1. -/
def Obligations.NoStepChangesThePlatform : Prop :=
  ∀ s t : State, step s = .next t → t.platform = s.platform

/-- A step stops only by refusing memory that is not ordinary (20_memory.md R39), and only where it touches such memory: at the
engine's turn, for a job over admitted memory with a window byte that is not ordinary; or at a host byte store or load, outside
the register window, whose own address is not ordinary. The refusal, and the recording of faults in a next state, are the
model's choices (log entries 5, 11). -/
def Obligations.StepStopsOnlyOnMemoryThatIsNotOrdinary : Prop :=
  ∀ s : State, (∃ t, step s = .next t) ∨
    (step s = .refused .notOrdinaryMemory ∧
      ((∃ j, s.job = some j ∧ jobAdmitted s.platform j = true ∧ jobOrdinary s.platform j = false ∧
          (s.inputs = [] ∨ ∃ rest, s.inputs = .engine :: rest)) ∨
        ∃ (a : Word) (rest : List Event), (s.inputs = .load a :: rest ∨ ∃ b, s.inputs = .store a b :: rest) ∧
          isOrdinary s.platform a.toNat = false ∧ Platform.inRegWindow s.platform a.toNat = false))

/-- 70_reset_and_hazards.md R117: a `WAITDONE` after a command ends. After an accepted one, with its job in flight: the poll that
meets BUSY, the engine's turn, and the poll that meets DONE; that `step` gives the engine a turn after a poll is the model's
choice, log entry 14 (`WaitDoneEndsInAFairExecution` leaves it open). After a refused one it ends at once: the CMD write, and one
poll. -/
def Obligations.WaitDoneEndsAfterACommand : Prop :=
  (∀ (s : State) (j : Job) (rest : List Event), s.Inv → s.job = some j → jobAdmitted s.platform j = true →
    jobOrdinary s.platform j = true → s.inputs = .waitDone :: rest →
    ∃ t, steps 3 s = .next t ∧ t.inputs = rest ∧ t.done = true ∧ t.job = none ∧ t.reply = some (.word t.status)) ∧
  ∀ (s : State) (w : Word) (rest : List Event), s.Inv → s.busy = false → s.inputs = wr .cmd w :: .waitDone :: rest →
    (cmdDecode w = .illegal ∨
      ∃ i, cmdDecode w = .command i ∧
        windowOK (Platform.regBase s.platform).toNat i s.srcAddr.toNat s.srcLen.toNat s.dstAddr.toNat = false) →
    ∃ t, steps 2 s = .next t ∧ t.inputs = rest ∧ t.done = true ∧ t.job = none ∧
      t.status = (if cmdDecode w = .illegal then 0x00000022#32 else 0x00000032#32) ∧ t.reply = some (.word t.status)

/-- 70_reset_and_hazards.md R117: a `WAITDONE` with no command issued since reset never ends: after any number of steps DONE is 0
and the wait is still the host's next event, with the turn of the engine that `step` puts before it (the model's choice, log
entry 14) or without. -/
def Obligations.WaitDoneWithoutACommandNeverEnds : Prop :=
  ∀ (s : State) (rest : List Event) (k : Nat), s.status = 0#32 → s.job = none → s.inputs = .waitDone :: rest →
    ∃ t, steps k s = .next t ∧ t.done = false ∧
      (t.inputs = .waitDone :: rest ∨ t.inputs = .engine :: .waitDone :: rest)

/-- 70_reset_and_hazards.md R117, R120: in every execution, whichever agent moves when, under the premises FairEngine and
OrdinaryWindows a `WAITDONE` with a job in flight ends, and the job's report and result are there: `Enc` of the source bytes
for ENCODE, `Dec` of them for DECODE. That the host goes on running (`HostRuns`) is the model's premise, log entry 19. -/
def Obligations.WaitDoneEndsInAFairExecution : Prop :=
  ∀ (choice : Nat → Agent) (run : Nat → State) (j : Job) (rest : List Event),
    Execution choice run → FairEngine choice run → HostRuns choice → OrdinaryWindows run →
    (run 0).Inv → (run 0).job = some j → (run 0).inputs = .waitDone :: rest →
    ∃ k, (run k).inputs = rest ∧ (run k).done = true ∧ (run k).job = none ∧ (run k).faults = (run 0).faults ∧
      (run k).reply = some (.word (run k).status) ∧
      (j.op = .encode →
        (run k).status = 0x00000002#32 ∧ (run k).outLen.toNat = j.wlen ∧
          Memory.read (run k).mem j.dst.toNat j.wlen = enc (Memory.read (run 0).mem j.src.toNat j.n.toNat)) ∧
      (j.op = .decode → ∀ out, dec (Memory.read (run 0).mem j.src.toNat j.n.toNat) = .ok out →
        (run k).status = 0x00000002#32 ∧ (run k).outLen.toNat = out.length ∧
          Memory.read (run k).mem j.dst.toNat out.length = out) ∧
      (j.op = .decode → dec (Memory.read (run 0).mem j.src.toNat j.n.toNat) = .invalidInput →
        (run k).status = 0x00000012#32 ∧ (run k).outLen = 0#32)
end

