-- ==== Sys2Proof/Laws/Memory.lean ====
section
/-! SUPPORT. The laws of memory: a read after a write, other addresses, and the canonical form. -/

namespace Sys2Proof.Machine

theorem Memory.wfFrom_cons {lo x : Nat} {v : Byte} {rest : List Host.Cell} :
    Memory.wfFrom lo ((x, v) :: rest) = true ↔
      lo ≤ x ∧ x < 2 ^ 32 ∧ v ≠ Memory.unlisted ∧ Memory.wfFrom (x + 1) rest = true := by
  simp [Memory.wfFrom, and_assoc]

theorem Memory.wfFrom_mono {lo lo' : Nat} {m : List Host.Cell} (h : Memory.wfFrom lo' m = true) (hl : lo ≤ lo') :
    Memory.wfFrom lo m = true := by
  cases m with
  | nil => rfl
  | cons c rest =>
    obtain ⟨x, v⟩ := c
    rw [Memory.wfFrom_cons] at h ⊢
    exact ⟨by omega, h.2.1, h.2.2⟩

/-- Below the first listed address, memory reads as unlisted. -/
theorem Memory.get_of_lt {lo a : Nat} {m : List Host.Cell} (h : Memory.wfFrom lo m = true) (ha : a < lo) :
    Memory.get m a = Memory.unlisted := by
  cases m with
  | nil => rfl
  | cons c rest =>
    obtain ⟨x, v⟩ := c
    have hx := (Memory.wfFrom_cons.1 h).1
    simp [Memory.get, show a ≠ x by omega, show a < x by omega]

/-- One cell in front of memory whose listed addresses lie above it. -/
theorem Memory.wfFrom_cell {lo a : Nat} {b : Byte} {m : List Host.Cell} (h : Memory.wfFrom (a + 1) m = true)
    (hl : lo ≤ a) (ha : a < 2 ^ 32) : Memory.wfFrom lo (Memory.cell a b ++ m) = true := by
  unfold Memory.cell
  split
  · exact Memory.wfFrom_mono h (by omega)
  · rename_i hb
    exact Memory.wfFrom_cons.2 ⟨hl, ha, hb, h⟩

theorem Memory.get_cell {a x : Nat} {b : Byte} {m : List Host.Cell} (h : Memory.wfFrom (a + 1) m = true) :
    Memory.get (Memory.cell a b ++ m) x = if x = a then b else Memory.get m x := by
  unfold Memory.cell
  split
  · rename_i hb
    split
    · rename_i hx
      rw [List.nil_append, Memory.get_of_lt h (by omega), hb]
    · rfl
  · by_cases hx : x = a
    · simp [Memory.get, hx]
    · by_cases hlt : x < a
      · rw [Memory.get_of_lt h (by omega)]
        simp [Memory.get, hx, hlt]
      · simp [Memory.get, hx, hlt]

/-- Writing one byte keeps the canonical form. -/
theorem Memory.set_wfFrom {lo a : Nat} {b : Byte} {m : List Host.Cell} (h : Memory.wfFrom lo m = true) (hl : lo ≤ a)
    (ha : a < 2 ^ 32) : Memory.wfFrom lo (Memory.set m a b) = true := by
  induction m generalizing lo with
  | nil => simpa [Memory.set] using Memory.wfFrom_cell (m := []) (b := b) rfl hl ha
  | cons c rest ih =>
    obtain ⟨x, v⟩ := c
    obtain ⟨h1, h2, h3, h4⟩ := Memory.wfFrom_cons.1 h
    unfold Memory.set
    split
    · exact Memory.wfFrom_cell (Memory.wfFrom_cons.2 ⟨by omega, h2, h3, h4⟩) hl ha
    · split
      · rename_i hx
        exact Memory.wfFrom_cell (hx ▸ h4) hl ha
      · exact Memory.wfFrom_cons.2 ⟨h1, h2, h3, ih h4 (by omega)⟩

/-- A read after a write of one byte: the byte written at its address, the old byte elsewhere. -/
theorem Memory.get_set_of_wfFrom {lo a : Nat} {b : Byte} {m : List Host.Cell} (h : Memory.wfFrom lo m = true) (x : Nat) :
    Memory.get (Memory.set m a b) x = if x = a then b else Memory.get m x := by
  induction m generalizing lo with
  | nil => simpa [Memory.set] using Memory.get_cell (m := []) (a := a) (b := b) (x := x) rfl
  | cons c rest ih =>
    obtain ⟨y, v⟩ := c
    obtain ⟨h1, h2, h3, h4⟩ := Memory.wfFrom_cons.1 h
    unfold Memory.set
    split
    · exact Memory.get_cell (Memory.wfFrom_cons.2 ⟨by omega, h2, h3, h4⟩)
    · split
      · rename_i hay
        subst hay
        rw [Memory.get_cell h4]
        by_cases hx : x = a
        · simp [hx]
        · by_cases hlt : x < a
          · rw [Memory.get_of_lt h4 (by omega)]
            simp [Memory.get, hx, hlt]
          · simp [Memory.get, hx, hlt]
      · by_cases hx : x = y
        · subst hx
          simp [Memory.get, show x ≠ a by omega]
        · by_cases hlt : x < y
          · simp [Memory.get, hx, hlt, show x ≠ a by omega]
          · simp [Memory.get, hx, hlt, ih h4]

theorem Memory.set_wf {a : Nat} {b : Byte} {m : List Host.Cell} (h : Memory.wf m = true) (ha : a < 2 ^ 32) :
    Memory.wf (Memory.set m a b) = true :=
  Memory.set_wfFrom h (Nat.zero_le a) ha

theorem Memory.get_set {a : Nat} {b : Byte} {m : List Host.Cell} (h : Memory.wf m = true) (x : Nat) :
    Memory.get (Memory.set m a b) x = if x = a then b else Memory.get m x :=
  Memory.get_set_of_wfFrom h x

/-- Writing a sequence below 2^32 keeps the canonical form. -/
theorem Memory.write_wf {a : Nat} {t : List Byte} {m : List Host.Cell} (h : Memory.wf m = true)
    (ha : a + t.length ≤ 2 ^ 32) : Memory.wf (Memory.write m a t) = true := by
  induction t generalizing a m with
  | nil => exact h
  | cons b rest ih =>
    simp only [List.length_cons] at ha
    exact ih (Memory.set_wf h (by omega)) (by omega)

/-- A read after a write of a sequence. -/
theorem Memory.get_write {a : Nat} {t : List Byte} {m : List Host.Cell} (h : Memory.wf m = true)
    (ha : a + t.length ≤ 2 ^ 32) (x : Nat) :
    Memory.get (Memory.write m a t) x = if a ≤ x ∧ x < a + t.length then t.getD (x - a) 0 else Memory.get m x := by
  induction t generalizing a m with
  | nil => simp [Memory.write, show ¬ (a ≤ x ∧ x < a) by omega]
  | cons b rest ih =>
    simp only [List.length_cons] at ha
    rw [Memory.write, ih (Memory.set_wf h (by omega)) (by omega), Memory.get_set h]
    simp only [List.length_cons]
    by_cases hx : x = a
    · subst hx
      simp
    · by_cases hin : a + 1 ≤ x ∧ x < a + 1 + rest.length
      · obtain ⟨k, hk⟩ : ∃ k, x - a = k + 1 := ⟨x - a - 1, by omega⟩
        have hk' : x - (a + 1) = k := by omega
        simp [hin, hk, hk', show a ≤ x ∧ x < a + (rest.length + 1) by omega]
      · rw [if_neg hin, if_neg hx, if_neg (by omega)]

@[simp] theorem Memory.read_length (m : List Host.Cell) (a n : Nat) : (Memory.read m a n).length = n := by
  induction n generalizing a with
  | zero => rfl
  | succ k ih => simp [Memory.read, ih]

/-- Element `i` of a buffer is the byte at `a + i`. -/
theorem Memory.read_getElem (m : List Host.Cell) (a n i : Nat) (h : i < (Memory.read m a n).length) :
    (Memory.read m a n)[i] = Memory.get m (a + i) := by
  induction n generalizing a i with
  | zero => simp [Memory.read] at h
  | succ k ih =>
    cases i with
    | zero => rfl
    | succ i =>
      simp only [Memory.read, List.getElem_cons_succ]
      rw [ih (a + 1) i (by simpa [Memory.read] using h)]
      congr 1
      omega

/-- Two memories that agree on a range read the same there. -/
theorem Memory.read_congr {m m' : List Host.Cell} {a n : Nat}
    (h : ∀ x, a ≤ x → x < a + n → Memory.get m x = Memory.get m' x) : Memory.read m a n = Memory.read m' a n := by
  apply List.ext_getElem
  · simp
  · intro i h1 h2
    rw [Memory.read_getElem, Memory.read_getElem]
    exact h _ (by omega) (by simp at h1; omega)

/-- Reading back a sequence just written. -/
theorem Memory.read_write {a : Nat} {t : List Byte} {m : List Host.Cell} (h : Memory.wf m = true)
    (ha : a + t.length ≤ 2 ^ 32) : Memory.read (Memory.write m a t) a t.length = t := by
  apply List.ext_getElem
  · simp
  · intro i h1 h2
    rw [Memory.read_getElem, Memory.get_write h ha]
    simp [h2]

/-- A write outside a range leaves what the range reads as. -/
theorem Memory.read_write_other {a b n : Nat} {t : List Byte} {m : List Host.Cell} (h : Memory.wf m = true)
    (ha : a + t.length ≤ 2 ^ 32) (hd : b + n ≤ a ∨ a + t.length ≤ b ∨ t = [] ∨ n = 0) :
    Memory.read (Memory.write m a t) b n = Memory.read m b n := by
  apply Memory.read_congr
  intro x h1 h2
  rw [Memory.get_write h ha, if_neg]
  rcases hd with h3 | h3 | h3 | h3
  · omega
  · omega
  · subst h3
    simp only [List.length_nil]
    omega
  · omega

@[simp] theorem drawBytes_length (c k : Nat) : (drawBytes c k).length = k := by
  induction k generalizing c with
  | zero => rfl
  | succ k ih => simp [drawBytes, ih]

/-- The `i`-th byte of a run of draws is draw number `c + i`. -/
theorem drawBytes_getD (c k i : Nat) (h : i < k) (d : Byte) : (drawBytes c k).getD i d = Config.drawByte (c + i) := by
  induction k generalizing c i with
  | zero => omega
  | succ k ih =>
    cases i with
    | zero => rfl
    | succ i =>
      simp only [drawBytes, List.getD_cons_succ]
      rw [ih (c + 1) i (by omega)]
      congr 1
      omega

/-- `allFrom` says its property of every address of the range. -/
theorem allFrom_iff (q : Nat → Bool) (a n : Nat) :
    allFrom q a n = true ↔ ∀ x, a ≤ x → x < a + n → q x = true := by
  induction n generalizing a with
  | zero => simp [allFrom]; omega
  | succ k ih =>
    simp only [allFrom, Bool.and_eq_true, ih]
    constructor
    · rintro ⟨h0, h⟩ x h1 h2
      by_cases hx : x = a
      · exact hx ▸ h0
      · exact h x (by omega) (by omega)
    · intro h
      exact ⟨h a (by omega) (by omega), fun x h1 h2 => h x (by omega) (by omega)⟩

end Sys2Proof.Machine
end

