-- ==== Sys2Proof/Laws/State.lean ====
section
/-! SUPPORT. What each update of one field, and each shared operation over them, leaves in each field. -/

namespace Sys2Proof.Machine

variable (s : State)

@[simp] theorem State.setStatus_status (v : Word) : (s.setStatus v).status = v := rfl
@[simp] theorem State.setStatus_srcAddr (v : Word) : (s.setStatus v).srcAddr = s.srcAddr := rfl
@[simp] theorem State.setStatus_srcLen (v : Word) : (s.setStatus v).srcLen = s.srcLen := rfl
@[simp] theorem State.setStatus_dstAddr (v : Word) : (s.setStatus v).dstAddr = s.dstAddr := rfl
@[simp] theorem State.setStatus_outLen (v : Word) : (s.setStatus v).outLen = s.outLen := rfl
@[simp] theorem State.setStatus_job (v : Word) : (s.setStatus v).job = s.job := rfl
@[simp] theorem State.setStatus_faults (v : Word) : (s.setStatus v).faults = s.faults := rfl
@[simp] theorem State.setStatus_mem (v : Word) : (s.setStatus v).mem = s.mem := rfl
@[simp] theorem State.setStatus_platform (v : Word) : (s.setStatus v).platform = s.platform := rfl
@[simp] theorem State.setStatus_inputs (v : Word) : (s.setStatus v).inputs = s.inputs := rfl
@[simp] theorem State.setStatus_reply (v : Word) : (s.setStatus v).reply = s.reply := rfl
@[simp] theorem State.setStatus_draws (v : Word) : (s.setStatus v).draws = s.draws := rfl

@[simp] theorem State.setSrcAddr_status (v : Word) : (s.setSrcAddr v).status = s.status := rfl
@[simp] theorem State.setSrcAddr_srcAddr (v : Word) : (s.setSrcAddr v).srcAddr = v := rfl
@[simp] theorem State.setSrcAddr_srcLen (v : Word) : (s.setSrcAddr v).srcLen = s.srcLen := rfl
@[simp] theorem State.setSrcAddr_dstAddr (v : Word) : (s.setSrcAddr v).dstAddr = s.dstAddr := rfl
@[simp] theorem State.setSrcAddr_outLen (v : Word) : (s.setSrcAddr v).outLen = s.outLen := rfl
@[simp] theorem State.setSrcAddr_job (v : Word) : (s.setSrcAddr v).job = s.job := rfl
@[simp] theorem State.setSrcAddr_faults (v : Word) : (s.setSrcAddr v).faults = s.faults := rfl
@[simp] theorem State.setSrcAddr_mem (v : Word) : (s.setSrcAddr v).mem = s.mem := rfl
@[simp] theorem State.setSrcAddr_platform (v : Word) : (s.setSrcAddr v).platform = s.platform := rfl
@[simp] theorem State.setSrcAddr_inputs (v : Word) : (s.setSrcAddr v).inputs = s.inputs := rfl
@[simp] theorem State.setSrcAddr_reply (v : Word) : (s.setSrcAddr v).reply = s.reply := rfl
@[simp] theorem State.setSrcAddr_draws (v : Word) : (s.setSrcAddr v).draws = s.draws := rfl

@[simp] theorem State.setSrcLen_status (v : Word) : (s.setSrcLen v).status = s.status := rfl
@[simp] theorem State.setSrcLen_srcAddr (v : Word) : (s.setSrcLen v).srcAddr = s.srcAddr := rfl
@[simp] theorem State.setSrcLen_srcLen (v : Word) : (s.setSrcLen v).srcLen = v := rfl
@[simp] theorem State.setSrcLen_dstAddr (v : Word) : (s.setSrcLen v).dstAddr = s.dstAddr := rfl
@[simp] theorem State.setSrcLen_outLen (v : Word) : (s.setSrcLen v).outLen = s.outLen := rfl
@[simp] theorem State.setSrcLen_job (v : Word) : (s.setSrcLen v).job = s.job := rfl
@[simp] theorem State.setSrcLen_faults (v : Word) : (s.setSrcLen v).faults = s.faults := rfl
@[simp] theorem State.setSrcLen_mem (v : Word) : (s.setSrcLen v).mem = s.mem := rfl
@[simp] theorem State.setSrcLen_platform (v : Word) : (s.setSrcLen v).platform = s.platform := rfl
@[simp] theorem State.setSrcLen_inputs (v : Word) : (s.setSrcLen v).inputs = s.inputs := rfl
@[simp] theorem State.setSrcLen_reply (v : Word) : (s.setSrcLen v).reply = s.reply := rfl
@[simp] theorem State.setSrcLen_draws (v : Word) : (s.setSrcLen v).draws = s.draws := rfl

@[simp] theorem State.setDstAddr_status (v : Word) : (s.setDstAddr v).status = s.status := rfl
@[simp] theorem State.setDstAddr_srcAddr (v : Word) : (s.setDstAddr v).srcAddr = s.srcAddr := rfl
@[simp] theorem State.setDstAddr_srcLen (v : Word) : (s.setDstAddr v).srcLen = s.srcLen := rfl
@[simp] theorem State.setDstAddr_dstAddr (v : Word) : (s.setDstAddr v).dstAddr = v := rfl
@[simp] theorem State.setDstAddr_outLen (v : Word) : (s.setDstAddr v).outLen = s.outLen := rfl
@[simp] theorem State.setDstAddr_job (v : Word) : (s.setDstAddr v).job = s.job := rfl
@[simp] theorem State.setDstAddr_faults (v : Word) : (s.setDstAddr v).faults = s.faults := rfl
@[simp] theorem State.setDstAddr_mem (v : Word) : (s.setDstAddr v).mem = s.mem := rfl
@[simp] theorem State.setDstAddr_platform (v : Word) : (s.setDstAddr v).platform = s.platform := rfl
@[simp] theorem State.setDstAddr_inputs (v : Word) : (s.setDstAddr v).inputs = s.inputs := rfl
@[simp] theorem State.setDstAddr_reply (v : Word) : (s.setDstAddr v).reply = s.reply := rfl
@[simp] theorem State.setDstAddr_draws (v : Word) : (s.setDstAddr v).draws = s.draws := rfl

@[simp] theorem State.setOutLen_status (v : Word) : (s.setOutLen v).status = s.status := rfl
@[simp] theorem State.setOutLen_srcAddr (v : Word) : (s.setOutLen v).srcAddr = s.srcAddr := rfl
@[simp] theorem State.setOutLen_srcLen (v : Word) : (s.setOutLen v).srcLen = s.srcLen := rfl
@[simp] theorem State.setOutLen_dstAddr (v : Word) : (s.setOutLen v).dstAddr = s.dstAddr := rfl
@[simp] theorem State.setOutLen_outLen (v : Word) : (s.setOutLen v).outLen = v := rfl
@[simp] theorem State.setOutLen_job (v : Word) : (s.setOutLen v).job = s.job := rfl
@[simp] theorem State.setOutLen_faults (v : Word) : (s.setOutLen v).faults = s.faults := rfl
@[simp] theorem State.setOutLen_mem (v : Word) : (s.setOutLen v).mem = s.mem := rfl
@[simp] theorem State.setOutLen_platform (v : Word) : (s.setOutLen v).platform = s.platform := rfl
@[simp] theorem State.setOutLen_inputs (v : Word) : (s.setOutLen v).inputs = s.inputs := rfl
@[simp] theorem State.setOutLen_reply (v : Word) : (s.setOutLen v).reply = s.reply := rfl
@[simp] theorem State.setOutLen_draws (v : Word) : (s.setOutLen v).draws = s.draws := rfl

@[simp] theorem State.setJob_status (v : Option Job) : (s.setJob v).status = s.status := rfl
@[simp] theorem State.setJob_srcAddr (v : Option Job) : (s.setJob v).srcAddr = s.srcAddr := rfl
@[simp] theorem State.setJob_srcLen (v : Option Job) : (s.setJob v).srcLen = s.srcLen := rfl
@[simp] theorem State.setJob_dstAddr (v : Option Job) : (s.setJob v).dstAddr = s.dstAddr := rfl
@[simp] theorem State.setJob_outLen (v : Option Job) : (s.setJob v).outLen = s.outLen := rfl
@[simp] theorem State.setJob_job (v : Option Job) : (s.setJob v).job = v := rfl
@[simp] theorem State.setJob_faults (v : Option Job) : (s.setJob v).faults = s.faults := rfl
@[simp] theorem State.setJob_mem (v : Option Job) : (s.setJob v).mem = s.mem := rfl
@[simp] theorem State.setJob_platform (v : Option Job) : (s.setJob v).platform = s.platform := rfl
@[simp] theorem State.setJob_inputs (v : Option Job) : (s.setJob v).inputs = s.inputs := rfl
@[simp] theorem State.setJob_reply (v : Option Job) : (s.setJob v).reply = s.reply := rfl
@[simp] theorem State.setJob_draws (v : Option Job) : (s.setJob v).draws = s.draws := rfl

@[simp] theorem State.setFaults_status (v : FaultBits) : (s.setFaults v).status = s.status := rfl
@[simp] theorem State.setFaults_srcAddr (v : FaultBits) : (s.setFaults v).srcAddr = s.srcAddr := rfl
@[simp] theorem State.setFaults_srcLen (v : FaultBits) : (s.setFaults v).srcLen = s.srcLen := rfl
@[simp] theorem State.setFaults_dstAddr (v : FaultBits) : (s.setFaults v).dstAddr = s.dstAddr := rfl
@[simp] theorem State.setFaults_outLen (v : FaultBits) : (s.setFaults v).outLen = s.outLen := rfl
@[simp] theorem State.setFaults_job (v : FaultBits) : (s.setFaults v).job = s.job := rfl
@[simp] theorem State.setFaults_faults (v : FaultBits) : (s.setFaults v).faults = v := rfl
@[simp] theorem State.setFaults_mem (v : FaultBits) : (s.setFaults v).mem = s.mem := rfl
@[simp] theorem State.setFaults_platform (v : FaultBits) : (s.setFaults v).platform = s.platform := rfl
@[simp] theorem State.setFaults_inputs (v : FaultBits) : (s.setFaults v).inputs = s.inputs := rfl
@[simp] theorem State.setFaults_reply (v : FaultBits) : (s.setFaults v).reply = s.reply := rfl
@[simp] theorem State.setFaults_draws (v : FaultBits) : (s.setFaults v).draws = s.draws := rfl

@[simp] theorem State.setMem_status (v : List Host.Cell) : (s.setMem v).status = s.status := rfl
@[simp] theorem State.setMem_srcAddr (v : List Host.Cell) : (s.setMem v).srcAddr = s.srcAddr := rfl
@[simp] theorem State.setMem_srcLen (v : List Host.Cell) : (s.setMem v).srcLen = s.srcLen := rfl
@[simp] theorem State.setMem_dstAddr (v : List Host.Cell) : (s.setMem v).dstAddr = s.dstAddr := rfl
@[simp] theorem State.setMem_outLen (v : List Host.Cell) : (s.setMem v).outLen = s.outLen := rfl
@[simp] theorem State.setMem_job (v : List Host.Cell) : (s.setMem v).job = s.job := rfl
@[simp] theorem State.setMem_faults (v : List Host.Cell) : (s.setMem v).faults = s.faults := rfl
@[simp] theorem State.setMem_mem (v : List Host.Cell) : (s.setMem v).mem = v := rfl
@[simp] theorem State.setMem_platform (v : List Host.Cell) : (s.setMem v).platform = s.platform := rfl
@[simp] theorem State.setMem_inputs (v : List Host.Cell) : (s.setMem v).inputs = s.inputs := rfl
@[simp] theorem State.setMem_reply (v : List Host.Cell) : (s.setMem v).reply = s.reply := rfl
@[simp] theorem State.setMem_draws (v : List Host.Cell) : (s.setMem v).draws = s.draws := rfl

@[simp] theorem State.setInputs_status (v : List Event) : (s.setInputs v).status = s.status := rfl
@[simp] theorem State.setInputs_srcAddr (v : List Event) : (s.setInputs v).srcAddr = s.srcAddr := rfl
@[simp] theorem State.setInputs_srcLen (v : List Event) : (s.setInputs v).srcLen = s.srcLen := rfl
@[simp] theorem State.setInputs_dstAddr (v : List Event) : (s.setInputs v).dstAddr = s.dstAddr := rfl
@[simp] theorem State.setInputs_outLen (v : List Event) : (s.setInputs v).outLen = s.outLen := rfl
@[simp] theorem State.setInputs_job (v : List Event) : (s.setInputs v).job = s.job := rfl
@[simp] theorem State.setInputs_faults (v : List Event) : (s.setInputs v).faults = s.faults := rfl
@[simp] theorem State.setInputs_mem (v : List Event) : (s.setInputs v).mem = s.mem := rfl
@[simp] theorem State.setInputs_platform (v : List Event) : (s.setInputs v).platform = s.platform := rfl
@[simp] theorem State.setInputs_inputs (v : List Event) : (s.setInputs v).inputs = v := rfl
@[simp] theorem State.setInputs_reply (v : List Event) : (s.setInputs v).reply = s.reply := rfl
@[simp] theorem State.setInputs_draws (v : List Event) : (s.setInputs v).draws = s.draws := rfl

@[simp] theorem State.setReply_status (v : Option Reply) : (s.setReply v).status = s.status := rfl
@[simp] theorem State.setReply_srcAddr (v : Option Reply) : (s.setReply v).srcAddr = s.srcAddr := rfl
@[simp] theorem State.setReply_srcLen (v : Option Reply) : (s.setReply v).srcLen = s.srcLen := rfl
@[simp] theorem State.setReply_dstAddr (v : Option Reply) : (s.setReply v).dstAddr = s.dstAddr := rfl
@[simp] theorem State.setReply_outLen (v : Option Reply) : (s.setReply v).outLen = s.outLen := rfl
@[simp] theorem State.setReply_job (v : Option Reply) : (s.setReply v).job = s.job := rfl
@[simp] theorem State.setReply_faults (v : Option Reply) : (s.setReply v).faults = s.faults := rfl
@[simp] theorem State.setReply_mem (v : Option Reply) : (s.setReply v).mem = s.mem := rfl
@[simp] theorem State.setReply_platform (v : Option Reply) : (s.setReply v).platform = s.platform := rfl
@[simp] theorem State.setReply_inputs (v : Option Reply) : (s.setReply v).inputs = s.inputs := rfl
@[simp] theorem State.setReply_reply (v : Option Reply) : (s.setReply v).reply = v := rfl
@[simp] theorem State.setReply_draws (v : Option Reply) : (s.setReply v).draws = s.draws := rfl

@[simp] theorem State.setDraws_status (v : Nat) : (s.setDraws v).status = s.status := rfl
@[simp] theorem State.setDraws_srcAddr (v : Nat) : (s.setDraws v).srcAddr = s.srcAddr := rfl
@[simp] theorem State.setDraws_srcLen (v : Nat) : (s.setDraws v).srcLen = s.srcLen := rfl
@[simp] theorem State.setDraws_dstAddr (v : Nat) : (s.setDraws v).dstAddr = s.dstAddr := rfl
@[simp] theorem State.setDraws_outLen (v : Nat) : (s.setDraws v).outLen = s.outLen := rfl
@[simp] theorem State.setDraws_job (v : Nat) : (s.setDraws v).job = s.job := rfl
@[simp] theorem State.setDraws_faults (v : Nat) : (s.setDraws v).faults = s.faults := rfl
@[simp] theorem State.setDraws_mem (v : Nat) : (s.setDraws v).mem = s.mem := rfl
@[simp] theorem State.setDraws_platform (v : Nat) : (s.setDraws v).platform = s.platform := rfl
@[simp] theorem State.setDraws_inputs (v : Nat) : (s.setDraws v).inputs = s.inputs := rfl
@[simp] theorem State.setDraws_reply (v : Nat) : (s.setDraws v).reply = s.reply := rfl
@[simp] theorem State.setDraws_draws (v : Nat) : (s.setDraws v).draws = v := rfl

/-! A recorded fault changes the fault bits and nothing else. -/

@[simp] theorem State.recordFault_status (f : Fault) : (s.recordFault f).status = s.status := rfl
@[simp] theorem State.recordFault_srcAddr (f : Fault) : (s.recordFault f).srcAddr = s.srcAddr := rfl
@[simp] theorem State.recordFault_srcLen (f : Fault) : (s.recordFault f).srcLen = s.srcLen := rfl
@[simp] theorem State.recordFault_dstAddr (f : Fault) : (s.recordFault f).dstAddr = s.dstAddr := rfl
@[simp] theorem State.recordFault_outLen (f : Fault) : (s.recordFault f).outLen = s.outLen := rfl
@[simp] theorem State.recordFault_job (f : Fault) : (s.recordFault f).job = s.job := rfl
@[simp] theorem State.recordFault_faults (f : Fault) : (s.recordFault f).faults = FaultBits.record s.faults f := rfl
@[simp] theorem State.recordFault_mem (f : Fault) : (s.recordFault f).mem = s.mem := rfl
@[simp] theorem State.recordFault_platform (f : Fault) : (s.recordFault f).platform = s.platform := rfl
@[simp] theorem State.recordFault_inputs (f : Fault) : (s.recordFault f).inputs = s.inputs := rfl
@[simp] theorem State.recordFault_reply (f : Fault) : (s.recordFault f).reply = s.reply := rfl
@[simp] theorem State.recordFault_draws (f : Fault) : (s.recordFault f).draws = s.draws := rfl

/-! Drawing a window changes memory and the count of draws. -/

@[simp] theorem State.drawWindow_status (j : Job) : (s.drawWindow j).status = s.status := rfl
@[simp] theorem State.drawWindow_srcAddr (j : Job) : (s.drawWindow j).srcAddr = s.srcAddr := rfl
@[simp] theorem State.drawWindow_srcLen (j : Job) : (s.drawWindow j).srcLen = s.srcLen := rfl
@[simp] theorem State.drawWindow_dstAddr (j : Job) : (s.drawWindow j).dstAddr = s.dstAddr := rfl
@[simp] theorem State.drawWindow_outLen (j : Job) : (s.drawWindow j).outLen = s.outLen := rfl
@[simp] theorem State.drawWindow_job (j : Job) : (s.drawWindow j).job = s.job := rfl
@[simp] theorem State.drawWindow_faults (j : Job) : (s.drawWindow j).faults = s.faults := rfl
@[simp] theorem State.drawWindow_mem (j : Job) : (s.drawWindow j).mem = Memory.write s.mem j.dst.toNat (drawBytes s.draws j.wlen) := rfl
@[simp] theorem State.drawWindow_platform (j : Job) : (s.drawWindow j).platform = s.platform := rfl
@[simp] theorem State.drawWindow_inputs (j : Job) : (s.drawWindow j).inputs = s.inputs := rfl
@[simp] theorem State.drawWindow_reply (j : Job) : (s.drawWindow j).reply = s.reply := rfl
@[simp] theorem State.drawWindow_draws (j : Job) : (s.drawWindow j).draws = s.draws + j.wlen := rfl

/-! A report changes STATUS and OUT_LEN. -/

@[simp] theorem State.report_status (c : ResultCode) (len : Nat) : (s.report c len).status = statusWord false true c := rfl
@[simp] theorem State.report_srcAddr (c : ResultCode) (len : Nat) : (s.report c len).srcAddr = s.srcAddr := rfl
@[simp] theorem State.report_srcLen (c : ResultCode) (len : Nat) : (s.report c len).srcLen = s.srcLen := rfl
@[simp] theorem State.report_dstAddr (c : ResultCode) (len : Nat) : (s.report c len).dstAddr = s.dstAddr := rfl
@[simp] theorem State.report_outLen (c : ResultCode) (len : Nat) : (s.report c len).outLen = BitVec.ofNat 32 len := rfl
@[simp] theorem State.report_job (c : ResultCode) (len : Nat) : (s.report c len).job = s.job := rfl
@[simp] theorem State.report_faults (c : ResultCode) (len : Nat) : (s.report c len).faults = s.faults := rfl
@[simp] theorem State.report_mem (c : ResultCode) (len : Nat) : (s.report c len).mem = s.mem := rfl
@[simp] theorem State.report_platform (c : ResultCode) (len : Nat) : (s.report c len).platform = s.platform := rfl
@[simp] theorem State.report_inputs (c : ResultCode) (len : Nat) : (s.report c len).inputs = s.inputs := rfl
@[simp] theorem State.report_reply (c : ResultCode) (len : Nat) : (s.report c len).reply = s.reply := rfl
@[simp] theorem State.report_draws (c : ResultCode) (len : Nat) : (s.report c len).draws = s.draws := rfl

/-! Acceptance changes STATUS, OUT_LEN and JOB. -/

@[simp] theorem State.accept_status (i : Instr) : (s.accept i).status = statusWord true false .ok := rfl
@[simp] theorem State.accept_srcAddr (i : Instr) : (s.accept i).srcAddr = s.srcAddr := rfl
@[simp] theorem State.accept_srcLen (i : Instr) : (s.accept i).srcLen = s.srcLen := rfl
@[simp] theorem State.accept_dstAddr (i : Instr) : (s.accept i).dstAddr = s.dstAddr := rfl
@[simp] theorem State.accept_outLen (i : Instr) : (s.accept i).outLen = 0#32 := rfl
@[simp] theorem State.accept_job (i : Instr) : (s.accept i).job = some (s.latch i) := rfl
@[simp] theorem State.accept_faults (i : Instr) : (s.accept i).faults = s.faults := rfl
@[simp] theorem State.accept_mem (i : Instr) : (s.accept i).mem = s.mem := rfl
@[simp] theorem State.accept_platform (i : Instr) : (s.accept i).platform = s.platform := rfl
@[simp] theorem State.accept_inputs (i : Instr) : (s.accept i).inputs = s.inputs := rfl
@[simp] theorem State.accept_reply (i : Instr) : (s.accept i).reply = s.reply := rfl
@[simp] theorem State.accept_draws (i : Instr) : (s.accept i).draws = s.draws := rfl

/-! A success changes STATUS, OUT_LEN, JOB and memory. -/

@[simp] theorem State.finishOk_status (j : Job) (out : List Byte) : (s.finishOk j out).status = statusWord false true .ok := rfl
@[simp] theorem State.finishOk_srcAddr (j : Job) (out : List Byte) : (s.finishOk j out).srcAddr = s.srcAddr := rfl
@[simp] theorem State.finishOk_srcLen (j : Job) (out : List Byte) : (s.finishOk j out).srcLen = s.srcLen := rfl
@[simp] theorem State.finishOk_dstAddr (j : Job) (out : List Byte) : (s.finishOk j out).dstAddr = s.dstAddr := rfl
@[simp] theorem State.finishOk_outLen (j : Job) (out : List Byte) : (s.finishOk j out).outLen = BitVec.ofNat 32 out.length := rfl
@[simp] theorem State.finishOk_job (j : Job) (out : List Byte) : (s.finishOk j out).job = none := rfl
@[simp] theorem State.finishOk_faults (j : Job) (out : List Byte) : (s.finishOk j out).faults = s.faults := rfl
@[simp] theorem State.finishOk_mem (j : Job) (out : List Byte) : (s.finishOk j out).mem = Memory.write s.mem j.dst.toNat out := rfl
@[simp] theorem State.finishOk_platform (j : Job) (out : List Byte) : (s.finishOk j out).platform = s.platform := rfl
@[simp] theorem State.finishOk_inputs (j : Job) (out : List Byte) : (s.finishOk j out).inputs = s.inputs := rfl
@[simp] theorem State.finishOk_reply (j : Job) (out : List Byte) : (s.finishOk j out).reply = s.reply := rfl
@[simp] theorem State.finishOk_draws (j : Job) (out : List Byte) : (s.finishOk j out).draws = s.draws := rfl

/-! INVALID_INPUT changes STATUS, OUT_LEN, JOB, memory and the count of draws. -/

@[simp] theorem State.finishErr_status (j : Job) : (s.finishErr j).status = statusWord false true .invalidInput := rfl
@[simp] theorem State.finishErr_srcAddr (j : Job) : (s.finishErr j).srcAddr = s.srcAddr := rfl
@[simp] theorem State.finishErr_srcLen (j : Job) : (s.finishErr j).srcLen = s.srcLen := rfl
@[simp] theorem State.finishErr_dstAddr (j : Job) : (s.finishErr j).dstAddr = s.dstAddr := rfl
@[simp] theorem State.finishErr_outLen (j : Job) : (s.finishErr j).outLen = 0#32 := rfl
@[simp] theorem State.finishErr_job (j : Job) : (s.finishErr j).job = none := rfl
@[simp] theorem State.finishErr_faults (j : Job) : (s.finishErr j).faults = s.faults := rfl
@[simp] theorem State.finishErr_mem (j : Job) : (s.finishErr j).mem = Memory.write s.mem j.dst.toNat (drawBytes s.draws j.wlen) := rfl
@[simp] theorem State.finishErr_platform (j : Job) : (s.finishErr j).platform = s.platform := rfl
@[simp] theorem State.finishErr_inputs (j : Job) : (s.finishErr j).inputs = s.inputs := rfl
@[simp] theorem State.finishErr_reply (j : Job) : (s.finishErr j).reply = s.reply := rfl
@[simp] theorem State.finishErr_draws (j : Job) : (s.finishErr j).draws = s.draws + j.wlen := rfl

end Sys2Proof.Machine
end

