-- ==== Sys2Proof/Laws/Ops.lean ====
section
/-! SUPPORT. What each shared operation can do, said once. -/

namespace Sys2Proof.Machine

/-! ## The flags -/

@[simp] theorem statusBusy_statusWord (b d : Bool) (c : ResultCode) : statusBusy (statusWord b d c) = b := by
  cases b <;> cases d <;> cases c <;> rfl

@[simp] theorem statusDone_statusWord (b d : Bool) (c : ResultCode) : statusDone (statusWord b d c) = d := by
  cases b <;> cases d <;> cases c <;> rfl

@[simp] theorem statusCode_statusWord (b d : Bool) (c : ResultCode) :
    statusCode (statusWord b d c) = ResultCode.bits c := by
  cases b <;> cases d <;> cases c <;> rfl

/-! ## Commands -/

theorem exec_eq_issue (i : Instr) (s : State) : exec i s = issue i s := by
  cases i <;> rfl

theorem issue_busy {i : Instr} {s : State} (h : s.busy = true) : issue i s = .next s := by simp [issue, h]

theorem issue_accepts {i : Instr} {s : State} (h : s.busy = false) (hw : s.windowOK i = true) :
    issue i s = .next (s.accept i) := by simp [issue, h, hw]

theorem issue_refuses {i : Instr} {s : State} (h : s.busy = false) (hw : s.windowOK i = false) :
    issue i s = .next (s.report .windowError 0) := by simp [issue, h, hw]

/-- The three outcomes of a CMD write of a legal word. -/
theorem issue_cases {i : Instr} {s t : State} (h : issue i s = .next t) :
    (s.busy = true ∧ t = s) ∨ (s.busy = false ∧ s.windowOK i = true ∧ t = s.accept i) ∨
      (s.busy = false ∧ s.windowOK i = false ∧ t = s.report .windowError 0) := by
  cases hb : s.busy
  · cases hw : s.windowOK i
    · rw [issue_refuses hb hw] at h
      exact .inr (.inr ⟨rfl, rfl, by cases h; rfl⟩)
    · rw [issue_accepts hb hw] at h
      exact .inr (.inl ⟨rfl, rfl, by cases h; rfl⟩)
  · rw [issue_busy hb] at h
    exact .inl ⟨rfl, by cases h; rfl⟩

/-- The two outcomes of a CMD write of an illegal word. -/
theorem issueIllegal_cases {s t : State} (h : issueIllegal s = .next t) :
    (s.busy = true ∧ t = s) ∨ (s.busy = false ∧ t = s.report .illegalCommand 0) := by
  unfold issueIllegal at h
  split at h
  · exact .inl ⟨‹_›, by cases h; rfl⟩
  · rename_i hb
    exact .inr ⟨by simpa using hb, by cases h; rfl⟩

/-- What a write to CMD can do (30_encoding.md R52). -/
theorem cmdWrite_cases {w : Word} {s t : State} (h : cmdWrite w s = .next t) :
    (s.busy = true ∧ t = s) ∨
      (s.busy = false ∧
        ((∃ i, cmdDecode w = .command i ∧ s.windowOK i = true ∧ t = s.accept i) ∨
          t = s.report .windowError 0 ∨ t = s.report .illegalCommand 0)) := by
  unfold cmdWrite at h
  split at h
  · rename_i i hi
    rw [exec_eq_issue] at h
    rcases issue_cases h with h | ⟨hb, hw, ht⟩ | ⟨hb, _, ht⟩
    · exact .inl h
    · exact .inr ⟨hb, .inl ⟨i, hi, hw, ht⟩⟩
    · exact .inr ⟨hb, .inr (.inl ht)⟩
  · rcases issueIllegal_cases h with h | ⟨hb, ht⟩
    · exact .inl h
    · exact .inr ⟨hb, .inr (.inr ht)⟩

/-! ## Completion -/

theorem complete_bad {j : Job} {s d : State} (h : jobAdmitted s.platform j = false) :
    complete j s d = .next (s.recordFault .engineBusError) := by simp [complete, h]

theorem complete_good {j : Job} {s d : State} (h : jobAdmitted s.platform j = true)
    (ho : jobOrdinary s.platform j = true) : complete j s d = .next d := by simp [complete, h, ho]

theorem complete_device {j : Job} {s d : State} (h : jobAdmitted s.platform j = true)
    (ho : jobOrdinary s.platform j = false) : complete j s d = .refused .notOrdinaryMemory := by simp [complete, h, ho]

theorem complete_cases {j : Job} {s d t : State} (h : complete j s d = .next t) :
    (jobAdmitted s.platform j = false ∧ t = s.recordFault .engineBusError) ∨
      (jobAdmitted s.platform j = true ∧ jobOrdinary s.platform j = true ∧ t = d) := by
  cases ha : jobAdmitted s.platform j
  · rw [complete_bad ha] at h
    exact .inl ⟨rfl, by cases h; rfl⟩
  · cases ho : jobOrdinary s.platform j
    · rw [complete_device ha ho] at h
      cases h
    · rw [complete_good ha ho] at h
      exact .inr ⟨rfl, rfl, by cases h; rfl⟩

/-- What the job leaves when it completes. -/
def State.finish (s : State) (j : Job) : State :=
  match j.op with
  | .encode => s.finishOk j (enc (Memory.read s.mem j.src.toNat j.n.toNat))
  | .decode => s.finishDecode j (dec (Memory.read s.mem j.src.toNat j.n.toNat))

theorem engineTurn_idle {s : State} (h : s.job = none) : engineTurn s = .next s := by simp [engineTurn, h]

theorem engineTurn_job {s : State} {j : Job} (h : s.job = some j) : engineTurn s = complete j s (s.finish j) := by
  cases ho : j.op <;> simp [engineTurn, h, State.finish, ho, completeEncode, completeDecode]

/-- What a turn of the engine can do (10_state.md R26). -/
theorem engineTurn_cases {s t : State} (h : engineTurn s = .next t) :
    (s.job = none ∧ t = s) ∨
      ∃ j, s.job = some j ∧
        ((jobAdmitted s.platform j = false ∧ t = s.recordFault .engineBusError) ∨
          (jobAdmitted s.platform j = true ∧ jobOrdinary s.platform j = true ∧ t = s.finish j)) := by
  cases hj : s.job with
  | none =>
    rw [engineTurn_idle hj] at h
    exact .inl ⟨rfl, by cases h; rfl⟩
  | some j =>
    rw [engineTurn_job hj] at h
    exact .inr ⟨j, rfl, complete_cases h⟩

/-- A finished job left its result or the draws of INVALID_INPUT. -/
theorem State.finish_cases (s : State) (j : Job) :
    (j.op = .encode ∧ s.finish j = s.finishOk j (enc (Memory.read s.mem j.src.toNat j.n.toNat))) ∨
      (j.op = .decode ∧ ∃ out, dec (Memory.read s.mem j.src.toNat j.n.toNat) = .ok out ∧ s.finish j = s.finishOk j out) ∨
      (j.op = .decode ∧ dec (Memory.read s.mem j.src.toNat j.n.toNat) = .invalidInput ∧ s.finish j = s.finishErr j) := by
  cases ho : j.op
  · simp [State.finish, ho]
  · cases hd : dec (Memory.read s.mem j.src.toNat j.n.toNat) <;> simp [State.finish, ho, hd, State.finishDecode]

/-! ## The host's accesses and RESET -/

/-- The register at offset 0 is CMD, and at no other offset. -/
theorem Reg.at_eq_cmd {off : BitVec 6} : Reg.at off = .cmd ↔ off = 0x00#6 := by
  revert off
  decide

/-- What a host write into the register window can do. -/
theorem regWrite_cases {width : Nat} {off : BitVec 6} {v : Word} {s t : State} (h : regWrite width off v s = .next t) :
    t = s ∨ t = s.recordFault .unsupportedRegisterAccess ∨
      (width = 32 ∧ off = 0x00#6 ∧ s.busy = false ∧ cmdWrite v s = .next t) ∨
      (s.busy = false ∧ (t = s.setSrcAddr v ∨ t = s.setSrcLen v ∨ t = s.setDstAddr v)) := by
  unfold regWrite at h
  split at h
  · cases h; exact .inr (.inl rfl)
  · rename_i hsup
    split at h
    · rename_i hcmd
      cases hb : s.busy
      · refine .inr (.inr (.inl ⟨?_, Reg.at_eq_cmd.1 hcmd, rfl, h⟩))
        simp [supportedAccess] at hsup
        exact hsup.1
      · rcases cmdWrite_cases h with h | h
        · exact .inl h.2
        · simp [hb] at h
    · split at h
      · cases h; exact .inl rfl
      · rename_i hb
        cases h
        cases Reg.at off <;> simp_all [State.writeReg]

theorem regRead_cases {width : Nat} {off : BitVec 6} {s t : State} (h : regRead width off s = .next t) :
    t = (s.recordFault .unsupportedRegisterAccess).setReply none ∨
      t = s.setReply (some (.word (s.readReg (Reg.at off)))) := by
  unfold regRead at h
  split at h <;> cases h <;> simp

theorem hostStore_cases {a : Word} {b : Byte} {s t : State} (h : hostStore a b s = .next t) :
    t = s.recordFault .unsupportedRegisterAccess ∨
      (s.inActiveWindow a.toNat = true ∧ t = (s.recordFault .windowHazard).setMem (Memory.set s.mem a.toNat b)) ∨
      (s.inActiveWindow a.toNat = false ∧ t = s.setMem (Memory.set s.mem a.toNat b)) := by
  unfold hostStore at h
  split at h
  · cases h; exact .inl rfl
  · split at h
    · cases h
    · split at h <;> cases h <;> simp_all

theorem hostLoad_cases {a : Word} {s t : State} (h : hostLoad a s = .next t) :
    t = (s.recordFault .unsupportedRegisterAccess).setReply none ∨
      t = (s.setReply (some (.byte (Config.drawByte s.draws)))).setDraws (s.draws + 1) ∨
      t = s.setReply (some (.byte (Memory.get s.mem a.toNat))) := by
  unfold hostLoad at h
  split at h
  · cases h; exact .inl rfl
  · split at h
    · cases h
    · split at h <;> cases h <;> simp

section Reset
variable (s : State)
@[simp] theorem resetEvent_status : (resetEvent s).status = 0x00000000#32 := rfl
@[simp] theorem resetEvent_srcAddr : (resetEvent s).srcAddr = 0x00000000#32 := rfl
@[simp] theorem resetEvent_srcLen : (resetEvent s).srcLen = 0x00000000#32 := rfl
@[simp] theorem resetEvent_dstAddr : (resetEvent s).dstAddr = 0x00000000#32 := rfl
@[simp] theorem resetEvent_outLen : (resetEvent s).outLen = 0x00000000#32 := rfl
@[simp] theorem resetEvent_job : (resetEvent s).job = none := rfl
@[simp] theorem resetEvent_faults : (resetEvent s).faults = s.faults := by cases h : s.job <;> simp [resetEvent, h]
@[simp] theorem resetEvent_platform : (resetEvent s).platform = s.platform := by cases h : s.job <;> simp [resetEvent, h]
@[simp] theorem resetEvent_inputs : (resetEvent s).inputs = s.inputs := by cases h : s.job <;> simp [resetEvent, h]
@[simp] theorem resetEvent_reply : (resetEvent s).reply = s.reply := by cases h : s.job <;> simp [resetEvent, h]
theorem resetEvent_mem_idle (h : s.job = none) : (resetEvent s).mem = s.mem := by simp [resetEvent, h]
theorem resetEvent_mem_job {j : Job} (h : s.job = some j) :
    (resetEvent s).mem = Memory.write s.mem j.dst.toNat (drawBytes s.draws j.wlen) := by simp [resetEvent, h]
end Reset

/-- A poll of WAITDONE changes the host's datum and the schedule, and nothing else. -/
theorem waitDone_eq (rest : List Event) (s : State) :
    waitDone rest s =
      (s.setReply (some (.word s.status))).setInputs (if s.done then rest else .engine :: .waitDone :: rest) := rfl

/-! ## The step -/

theorem step_idle {s : State} (h : s.inputs = []) : step s = engineTurn s := by simp [step, nextStep, h]

theorem step_event {s : State} {e : Event} {rest : List Event} (h : s.inputs = e :: rest) :
    step s = handle e (s.setInputs rest) := by simp [step, nextStep, h]

/-- What a step can do: the engine's turn when nothing is scheduled, or what the next event does. -/
theorem step_cases {s t : State} (h : step s = .next t) :
    (s.inputs = [] ∧ engineTurn s = .next t) ∨
      ∃ e rest, s.inputs = e :: rest ∧ handle e (s.setInputs rest) = .next t := by
  cases hi : s.inputs with
  | nil => exact .inl ⟨rfl, by rwa [step_idle hi] at h⟩
  | cons e rest => exact .inr ⟨e, rest, rfl, by rwa [step_event hi] at h⟩

end Sys2Proof.Machine
end

