-- ==== Sys2Proof/Laws/Invariant.lean ====
section
/-! SUPPORT. What the invariant says of a state with and without a job in flight. -/

namespace Sys2Proof.Machine

/-! ## Several steps -/

@[simp] theorem steps_zero (s : State) : steps 0 s = .next s := rfl

theorem steps_succ {s t : State} (k : Nat) (h : step s = .next t) : steps (k + 1) s = steps k t := by
  rw [steps, h]

/-- A run that goes on is the first steps and then the others. -/
theorem steps_add {s t : State} (k l : Nat) (h : steps k s = .next t) : steps (k + l) s = steps l t := by
  induction k generalizing s with
  | zero => cases h; rw [Nat.zero_add]
  | succ k ih =>
    rw [show k + 1 + l = (k + l) + 1 by omega]
    cases hs : step s with
    | next u => rw [steps_succ _ hs] at h ⊢; exact ih h
    | fault f => rw [steps, hs] at h; cases h
    | refused r => rw [steps, hs] at h; cases h

/-! ## Windows -/

theorem inWindow_iff {a n x : Nat} : inWindow a n x = true ↔ a ≤ x ∧ x < a + n := by simp [inWindow]

theorem inWindow_eq_false {a n x : Nat} : inWindow a n x = false ↔ ¬ (a ≤ x ∧ x < a + n) := by
  simp [inWindow]

/-- The window rule, part by part (20_memory.md R33). -/
theorem windowOK_iff {base : Nat} {i : Instr} {s n d : Nat} :
    windowOK base i s n d = true ↔
      s + n ≤ 2 ^ 32 ∧ d + wlen i n ≤ 2 ^ 32 ∧ wlen i n ≤ 2 ^ 32 - 1 ∧ overlap s n d (wlen i n) = false ∧
        overlap s n base 0x40 = false ∧ overlap d (wlen i n) base 0x40 = false := by
  simp [windowOK, and_assoc]

theorem overlap_eq_false {a la b lb : Nat} :
    overlap a la b lb = false ↔ la = 0 ∨ lb = 0 ∨ b + lb ≤ a ∨ a + la ≤ b := by
  unfold overlap
  by_cases h1 : 0 < la <;> by_cases h2 : 0 < lb <;> by_cases h3 : a < b + lb <;> by_cases h4 : b < a + la <;>
    simp [h1, h2, h3, h4] <;> omega

/-- Without a job the block is not busy. -/
theorem State.Inv.idle {s : State} (h : s.Inv) (hj : s.job = none) : s.busy = false := by
  have := h.2.2.1
  simpa [State.jobAgrees, hj] using this

/-- With BUSY = 0 there is no job. -/
theorem State.Inv.no_job {s : State} (h : s.Inv) (hb : s.busy = false) : s.job = none := by
  have := h.2.2.1
  cases hj : s.job with
  | none => rfl
  | some j => simp [State.jobAgrees, hj, hb] at this

/-- A job in flight is the latch of the registers, its windows passed the window rule, BUSY is 1 and OUT_LEN is 0. -/
theorem State.Inv.job {s : State} {j : Job} (h : s.Inv) (hj : s.job = some j) :
    s.busy = true ∧ j = s.latch j.op ∧ s.windowOK j.op = true ∧ s.outLen = 0#32 := by
  have := h.2.2.1
  simpa [State.jobAgrees, hj, and_assoc] using this

/-- The bounds of a job in flight. -/
theorem State.Inv.bounds {s : State} {j : Job} (h : s.Inv) (hj : s.job = some j) :
    j.src.toNat + j.n.toNat ≤ 2 ^ 32 ∧ j.dst.toNat + j.wlen ≤ 2 ^ 32 ∧ j.wlen ≤ 2 ^ 32 - 1 ∧
      j.wlen = Machine.wlen j.op j.n.toNat := by
  obtain ⟨_, hl, hw, _⟩ := h.job hj
  rw [State.windowOK, windowOK_iff] at hw
  obtain ⟨h1, h2, h3, _⟩ := hw
  have e1 : j.src = s.srcAddr := by rw [hl]; rfl
  have e2 : j.n = s.srcLen := by rw [hl]; rfl
  have e3 : j.dst = s.dstAddr := by rw [hl]; rfl
  have e4 : j.wlen = Machine.wlen j.op s.srcLen.toNat := by rw [hl]; rfl
  rw [e1, e2, e3, e4]
  exact ⟨h1, h2, h3, rfl⟩

/-- The windows of a job in flight share no byte, and neither shares one with the register window. -/
theorem State.Inv.disjoint {s : State} {j : Job} (h : s.Inv) (hj : s.job = some j) :
    overlap j.src.toNat j.n.toNat j.dst.toNat j.wlen = false ∧
      overlap j.src.toNat j.n.toNat (Platform.regBase s.platform).toNat 0x40 = false ∧
      overlap j.dst.toNat j.wlen (Platform.regBase s.platform).toNat 0x40 = false := by
  obtain ⟨_, hl, hw, _⟩ := h.job hj
  rw [State.windowOK, windowOK_iff] at hw
  have e1 : j.src = s.srcAddr := by rw [hl]; rfl
  have e2 : j.n = s.srcLen := by rw [hl]; rfl
  have e3 : j.dst = s.dstAddr := by rw [hl]; rfl
  have e4 : j.wlen = Machine.wlen j.op s.srcLen.toNat := by rw [hl]; rfl
  rw [e1, e2, e3, e4]
  exact hw.2.2.2

end Sys2Proof.Machine
end

