-- ==== Sys2Proof/Laws/Executions.lean ====
section
/-! SUPPORT. What a move of an agent can do, how `step` chooses the agent, and that every execution has PlatformOrdering. -/

namespace Sys2Proof.Machine

/-! ## Moves and steps -/

theorem agentTurn_engine (s : State) : agentTurn .engine s = engineTurn s := rfl

theorem agentTurn_idle {s : State} (h : s.inputs = []) : agentTurn .host s = .next s := by simp [agentTurn, h]

theorem agentTurn_wait {s : State} {rest : List Event} (h : s.inputs = .waitDone :: rest) :
    agentTurn .host s = .next (pollStatus (.waitDone :: rest) rest s) := by simp [agentTurn, h]

theorem agentTurn_event {s : State} {e : Event} {rest : List Event} (h : s.inputs = e :: rest) (he : e ≠ .waitDone) :
    agentTurn .host s = handle e (s.setInputs rest) := by
  cases e <;> simp_all [agentTurn]

/-- What a move can do. -/
theorem agentTurn_cases {a : Agent} {s t : State} (h : agentTurn a s = .next t) :
    engineTurn s = .next t ∨ t = s ∨ (∃ again rest, t = pollStatus again rest s) ∨
      ∃ e rest, a = .host ∧ e ≠ .waitDone ∧ s.inputs = e :: rest ∧ handle e (s.setInputs rest) = .next t := by
  cases a with
  | engine => exact .inl h
  | host =>
    cases hi : s.inputs with
    | nil => rw [agentTurn_idle hi] at h; cases h; exact .inr (.inl rfl)
    | cons e rest =>
      by_cases he : e = .waitDone
      · subst he
        rw [agentTurn_wait hi] at h; cases h
        exact .inr (.inr (.inl ⟨_, _, rfl⟩))
      · rw [agentTurn_event hi he] at h
        exact .inr (.inr (.inr ⟨e, rest, rfl, he, rfl, h⟩))

/-- `step` is the host's move while the schedule holds an event other than a wait. -/
theorem step_eq_host {s : State} {e : Event} {rest : List Event} (h : s.inputs = e :: rest) (he : e ≠ .waitDone) :
    step s = agentTurn .host s := by rw [step_event h, agentTurn_event h he]

/-- `step` is the engine's move once the schedule is empty. -/
theorem step_eq_engine {s : State} (h : s.inputs = []) : step s = agentTurn .engine s := step_idle h

/-- At a wait, `step` is the host's move, and then chooses the engine next where the poll gave DONE = 0 (log entry 14). -/
theorem step_eq_poll {s : State} {rest : List Event} (h : s.inputs = .waitDone :: rest) :
    agentTurn .host s = .next (pollStatus (.waitDone :: rest) rest s) ∧
      step s = .next (pollStatus (.engine :: .waitDone :: rest) rest s) :=
  ⟨agentTurn_wait h, by rw [step_event h]; rfl⟩

section Poll
variable (again rest : List Event) (s : State)
@[simp] theorem pollStatus_status : (pollStatus again rest s).status = s.status := rfl
@[simp] theorem pollStatus_job : (pollStatus again rest s).job = s.job := rfl
@[simp] theorem pollStatus_faults : (pollStatus again rest s).faults = s.faults := rfl
@[simp] theorem pollStatus_mem : (pollStatus again rest s).mem = s.mem := rfl
@[simp] theorem pollStatus_platform : (pollStatus again rest s).platform = s.platform := rfl
@[simp] theorem pollStatus_reply : (pollStatus again rest s).reply = some (.word s.status) := rfl
@[simp] theorem pollStatus_inputs : (pollStatus again rest s).inputs = if s.done then rest else again := rfl
end Poll

/-! ## What a move does to memory and to the job -/

theorem State.finish_job (s : State) (j : Job) : (s.finish j).job = none := by
  rcases s.finish_cases j with ⟨_, h⟩ | ⟨_, _, _, h⟩ | ⟨_, _, h⟩ <;> rw [h] <;> rfl

/-- A host register access leaves memory as it is. -/
theorem regWrite_mem {width : Nat} {off : BitVec 6} {v : Word} {s t : State} (h : regWrite width off v s = .next t) :
    t.mem = s.mem := by
  rcases regWrite_cases h with rfl | rfl | ⟨_, _, _, h⟩ | ⟨_, rfl | rfl | rfl⟩ <;> try rfl
  rcases cmdWrite_cases h with ⟨_, rfl⟩ | ⟨_, ⟨_, _, _, rfl⟩ | rfl | rfl⟩ <;> rfl

/-- What a move can do to memory: nothing; or the job ends; or the host stores a byte, which ends no job and records
WindowHazard where the byte is in a window of the job in flight. -/
theorem agentTurn_mem {a : Agent} {s t : State} (h : agentTurn a s = .next t) :
    t.mem = s.mem ∨ (s.job ≠ none ∧ t.job = none) ∨
      ∃ addr b rest, a = .host ∧ s.inputs = .store addr b :: rest ∧ t.mem = Memory.set s.mem addr.toNat b ∧ t.job = s.job ∧
        (s.inActiveWindow addr.toNat = true → t.faults.windowHazard = true) := by
  have engine : ∀ {q u : State}, engineTurn q = .next u → u.mem = q.mem ∨ (q.job ≠ none ∧ u.job = none) := by
    intro q u hq
    rcases engineTurn_cases hq with ⟨_, rfl⟩ | ⟨j, hj, ⟨_, rfl⟩ | ⟨_, _, rfl⟩⟩
    · exact .inl rfl
    · exact .inl rfl
    · exact .inr ⟨by simp [hj], State.finish_job q j⟩
  rcases agentTurn_cases h with h | rfl | ⟨_, _, rfl⟩ | ⟨e, rest, rfl, he, hi, h⟩
  · exact (engine h).imp_right .inl
  · exact .inl rfl
  · exact .inl rfl
  · cases e with
    | regWrite width off v => exact .inl (regWrite_mem (s := s.setInputs rest) h)
    | regRead width off => rcases regRead_cases h with rfl | rfl <;> exact .inl rfl
    | store addr b =>
      rcases hostStore_cases h with rfl | ⟨_, rfl⟩ | ⟨hw, rfl⟩
      · exact .inl rfl
      · exact .inr (.inr ⟨addr, b, rest, rfl, hi, rfl, rfl, fun _ => rfl⟩)
      · exact .inr (.inr ⟨addr, b, rest, rfl, hi, rfl, rfl, fun hw' =>
          absurd (hw'.symm.trans (show s.inActiveWindow addr.toNat = false from hw)) (by decide)⟩)
    | load addr => rcases hostLoad_cases h with rfl | rfl | rfl <;> exact .inl rfl
    | waitDone => exact absurd rfl he
    | engine => exact (engine h).imp_right .inl
    | reset =>
      cases h
      cases hj : s.job with
      | none => exact .inl (resetEvent_mem_idle (s.setInputs rest) hj)
      | some j => exact .inr (.inl ⟨by simp, rfl⟩)

/-! ## PlatformOrdering -/

/-- Start order, by induction on the moves since the CMD write. -/
theorem execution_startOrder {choice : Nat → Agent} {run : Nat → State} (hx : Execution choice run)
    (wf : ∀ k, Memory.wf (run k).mem = true) : StartOrder run := by
  intro k m j hkm hk hjob
  induction m, hkm using Nat.le_induction with
  | base => rfl
  | succ m hkm ih =>
    rw [← ih fun i h1 h2 => hjob i h1 (by omega)]
    obtain ⟨hj, hf⟩ := hjob (m + 1) (by omega) (by omega)
    rcases agentTurn_mem (hx m) with h | ⟨_, h⟩ | ⟨addr, b, rest, _, _, h, hs, hz⟩
    · rw [h]
    · rw [h] at hj; cases hj
    · rw [h]
      apply Memory.read_congr
      intro x hx1 hx2
      rw [Memory.get_set (wf m)]
      split
      · rename_i hxa
        exfalso
        rcases Nat.eq_or_lt_of_le hkm with rfl | hlt
        · rw [hs, hk] at hj; cases hj
        · have hact : (run m).inActiveWindow addr.toNat = true := by
            simp only [State.inActiveWindow, (hjob m hlt (by omega)).1, Job.inSrc, Bool.or_eq_true]
            exact .inl (inWindow_iff.2 ⟨by omega, by omega⟩)
          have := hz hact
          simp [State.noFault] at hf
          rw [hf] at this; cases this
      · rfl

/-- Completion order, by induction on the moves since DONE = 1. -/
theorem execution_completionOrder {choice : Nat → Agent} {run : Nat → State} (hx : Execution choice run)
    (wf : ∀ k, Memory.wf (run k).mem = true) : CompletionOrder choice run := by
  intro k m a rest hkm _ hjob hst hm hi hr
  have hmem : ∀ i, k ≤ i → i ≤ m → Memory.get (run i).mem a.toNat = Memory.get (run k).mem a.toNat := by
    intro i hki
    induction i, hki using Nat.le_induction with
    | base => exact fun _ => rfl
    | succ i hki ih =>
      intro him
      rw [← ih (by omega)]
      rcases agentTurn_mem (hx i) with h | ⟨h, _⟩ | ⟨addr, b, rs, ha, hin, h, _, _⟩
      · rw [h]
      · exact absurd (hjob i hki (by omega)) h
      · rw [h, Memory.get_set (wf i)]
        split
        · rename_i hxa
          have : a = addr := BitVec.eq_of_toNat_eq hxa
          subst this
          exact absurd hin (hst i hki (by omega) ha b rs)
        · rfl
  have h := hx m
  rw [hm, agentTurn_event hi (by simp)] at h
  rw [← hmem m hkm (by omega)]
  have hact : ((run m).setInputs rest).inActiveDst a.toNat = false := by
    simp [State.inActiveDst, hjob m hkm (by omega)]
  cases ho : isOrdinary (run m).platform a.toNat <;> simp [handle, hostLoad, hr, hact, ho] at h
  rw [← h]
  rfl

/-- Every execution of the model over memories in canonical form has PlatformOrdering (20_memory.md R43). -/
theorem execution_platformOrdering {choice : Nat → Agent} {run : Nat → State} (hx : Execution choice run)
    (wf : ∀ k, Memory.wf (run k).mem = true) : PlatformOrdering choice run :=
  ⟨execution_startOrder hx wf, execution_completionOrder hx wf⟩

end Sys2Proof.Machine
end

