-- ==== Sys2Proof/Laws/PerInstr.lean ====
section
/-! SUPPORT. What holds of every command as syntax, one lemma per constructor. -/

namespace Sys2Proof.Laws.EncodingFields

/-- The word of the command has well-formed fields (30_encoding.md R48, R55): RSV is 0 and OP is one of the two operations. -/
def Statement (i : Instr) : Prop := i.wf = true ∧ (CmdFields.ofWord (Sys2Proof.encode i)).wf = true

theorem encode : Statement .encode := by unfold Statement; decide

theorem decode : Statement .decode := by unfold Statement; decide

end Sys2Proof.Laws.EncodingFields
end

