-- ==== Sys2Proof/Tests/Slice0.lean ====
section
/-! SUPPORT. Tests with results from spec/ (mostly 95_test_vectors.md), the smoke test of WellFormed, and a witness for the
hypotheses of every statement that has some. -/

namespace Sys2Proof.Tests

open Sys2Proof.Machine

/-! ## Words and well-formedness -/

/-- The words of the opcode map, bit by bit from 30_encoding.md R48: RSV in bits 31:4, then OP. -/
theorem test_words_bit_by_bit :
    cmdDecode 0b0000000000000000000000000000_0001#32 = .command .encode ∧
      cmdDecode 0b0000000000000000000000000000_0010#32 = .command .decode := by decide

/-- The illegal words of 95_test_vectors.md section 2.8. -/
theorem test_illegal_words :
    cmdDecode 0b0000000000000000000000000000_0000#32 = .illegal ∧
      cmdDecode 0b0000000000000000000000000000_0011#32 = .illegal ∧
      cmdDecode 0b0000000000000000000000000001_0001#32 = .illegal ∧
      cmdDecode 0b1000000000000000000000000000_0001#32 = .illegal := by decide

/-- The opcode table's numbering of the bits. -/
theorem test_table_words :
    decodeTableWord 32 1 = some .encode ∧ decodeTableWord 32 2 = some .decode ∧ decodeTableWord 32 0x11 = none := by decide

/-- WellFormed refuses fields with a reserved OP, and fields with RSV not 0. -/
theorem test_wf_refuses :
    (CmdFields.mk 1#4 0#28).wf = true ∧ (CmdFields.mk 3#4 0#28).opOk = false ∧ (CmdFields.mk 3#4 0#28).wf = false ∧
      (CmdFields.mk 1#4 1#28).rsvOk = false ∧ (CmdFields.mk 1#4 1#28).wf = false ∧ Instr.encode.wf = true := by decide

/-! ## The codec, from 95_test_vectors.md sections 1, 2.1, 2.3, 2.5, 2.6, 2.7 -/

theorem test_alphabet :
    valueOf 25#6 = 0x5A#8 ∧ valueOf 26#6 = 0x61#8 ∧ valueOf 52#6 = 0x30#8 ∧ valueOf 62#6 = 0x2B#8 ∧ valueOf 63#6 = 0x2F#8 ∧
      indexOf 0x67#8 = .value 32#6 ∧ indexOf 0x3D#8 = .pad ∧ indexOf 0x2D#8 = .invalid ∧ indexOf 0x0A#8 = .invalid ∧
      indexOf 0xC1#8 = .invalid := by decide

/-- The reference ROM form of REV (40_alphabet.md R67). -/
theorem test_rom : (indexOf 0x2F#8).rom = 0x3F#8 ∧ (indexOf 0x3D#8).rom = 0x40#8 ∧ (indexOf 0x21#8).rom = 0x80#8 := by decide

/-- S1, S3, S5, S7, S11. -/
theorem test_enc_vectors :
    enc [] = [] ∧ enc [0x66#8] = [0x5A#8, 0x67#8, 0x3D#8, 0x3D#8] ∧
      enc [0x66#8, 0x6F#8] = [0x5A#8, 0x6D#8, 0x38#8, 0x3D#8] ∧
      enc [0x66#8, 0x6F#8, 0x6F#8] = [0x5A#8, 0x6D#8, 0x39#8, 0x76#8] ∧
      enc [0xDE#8, 0xD8#8, 0x4D#8, 0xB3#8, 0xBA#8] =
        [0x33#8, 0x74#8, 0x68#8, 0x4E#8, 0x73#8, 0x37#8, 0x6F#8, 0x3D#8] := by decide

/-- S2, S4, S6, S8, and the text `Zh==` that is not canonical (section 2.6). -/
theorem test_dec_vectors :
    dec [] = .ok [] ∧ dec [0x5A#8, 0x67#8, 0x3D#8, 0x3D#8] = .ok [0x66#8] ∧
      dec [0x5A#8, 0x6D#8, 0x38#8, 0x3D#8] = .ok [0x66#8, 0x6F#8] ∧
      dec [0x5A#8, 0x6D#8, 0x39#8, 0x76#8] = .ok [0x66#8, 0x6F#8, 0x6F#8] ∧
      dec [0x5A#8, 0x68#8, 0x3D#8, 0x3D#8] = .ok [0x66#8] ∧ canonical [0x5A#8, 0x68#8, 0x3D#8, 0x3D#8] = false := by decide

/-- S12, S13, `====`, `A===`, `AA=A`, `Zg==Zg==` (section 2.7). -/
theorem test_dec_errors :
    dec [0x5A#8, 0x6D#8, 0x39#8, 0x76#8, 0x59#8, 0x6D#8, 0x45#8] = .invalidInput ∧
      dec [0x5A#8, 0x21#8, 0x39#8, 0x76#8] = .invalidInput ∧ dec [0x3D#8, 0x3D#8, 0x3D#8, 0x3D#8] = .invalidInput ∧
      dec [0x41#8, 0x3D#8, 0x3D#8, 0x3D#8] = .invalidInput ∧ dec [0x41#8, 0x41#8, 0x3D#8, 0x41#8] = .invalidInput ∧
      dec [0x5A#8, 0x67#8, 0x3D#8, 0x3D#8, 0x5A#8, 0x67#8, 0x3D#8, 0x3D#8] = .invalidInput := by decide

/-! ## The window rule, from 95_test_vectors.md section 2.9 -/

theorem test_window_rule :
    windowOK 0x40000000 .encode 0x1000 6 0x2000 = true ∧ windowOK 0x40000000 .encode 0x1000 6 0x1004 = false ∧
      windowOK 0x40000000 .encode 0x1000 6 0x1006 = true ∧ windowOK 0x40000000 .encode 0x1007 6 0x1000 = false ∧
      windowOK 0x40000000 .encode 0xFFFFFFFF 2 0x1000 = false ∧ windowOK 0x40000000 .encode 0xFFFFFFFE 2 0x1000 = true ∧
      windowOK 0x40000000 .encode 0x1000 1 0xFFFFFFFD = false ∧ windowOK 0x40000000 .encode 0x1000 1 0xFFFFFFFC = true ∧
      windowOK 0x40000000 .encode 0 3221225470 0 = false ∧ windowOK 0x40000000 .encode 0x1000 3 0x3FFFFFFC = true ∧
      windowOK 0x40000000 .encode 0x1000 4 0x3FFFFFFC = false ∧ windowOK 0x40000000 .encode 0x4000003F 1 0x1000 = false ∧
      windowOK 0x40000000 .encode 0x40000040 1 0x1000 = true ∧ windowOK 0x40000000 .decode 0x1000 3 0x1000 = true ∧
      windowOK 0x40000000 .decode 0x1000 7 0x1003 = false := by decide

/-! ## Small states -/

/-- An idle block on the example platform, with parameters and memory. -/
def idle (s n d : Word) (m : List Host.Cell) : State :=
  { State.reset with srcAddr := s, srcLen := n, dstAddr := d, mem := m }

/-- `"foo"` at 0x1000 (95_test_vectors.md section 2.10). -/
def fooMem : List Host.Cell := [(0x1000, 0x66#8), (0x1001, 0x6F#8), (0x1002, 0x6F#8)]

/-- Before the ENCODE of `"foo"`. -/
def foo : State := idle 0x1000#32 3#32 0x2000#32 fooMem

/-- `"Zm8="` at 0x1000 and the guard bytes of program P2. -/
def zm8Mem : List Host.Cell :=
  [(0x1000, 0x5A#8), (0x1001, 0x6D#8), (0x1002, 0x38#8), (0x1003, 0x3D#8), (0x2000, 0xEE#8), (0x2001, 0xEE#8), (0x2002, 0xEE#8)]

/-- Before the DECODE of `"Zm8="`. -/
def zm8 : State := idle 0x1000#32 4#32 0x2000#32 zm8Mem

/-- Before a DECODE of `"Z!9v"` (program P3). -/
def bad : State := idle 0x1000#32 4#32 0x2000#32 [(0x1000, 0x5A#8), (0x1001, 0x21#8), (0x1002, 0x39#8), (0x1003, 0x76#8)]

/-- Two windows that overlap (program P5, line 6). -/
def overlapping : State := idle 0x1000#32 6#32 0x1004#32 []

/-- The job of the ENCODE of `"foo"`. -/
def fooJob : Job := { op := .encode, src := 0x1000#32, n := 3#32, dst := 0x2000#32, wlen := 4 }

/-- The state an outcome goes on in. -/
def nextOf (o : Host.Outcome State Fault Refusal) : Option State :=
  match o with
  | .next s => some s
  | .fault _ => none
  | .refused _ => none

/-- Something of the state an outcome goes on in. -/
def after {α : Type} (o : Host.Outcome State Fault Refusal) (f : State → α) : Option α := (nextOf o).map f

/-! ## One step each -/

/-- 95_test_vectors.md section 2.10: `WR CMD, 1` is accepted. -/
theorem test_encode_issue :
    after (step (foo.withFetchWord 32 1)) (fun t => (t.status, t.outLen, t.job, t.inputs)) =
      some (0x00000001#32, 0#32, some fooJob, []) := by decide

/-- Section 2.10: the engine step writes `Zm9v`, OUT_LEN 4, STATUS 0x00000002. -/
theorem test_encode_completion :
    after (step (foo.accept .encode)) (fun t => (t.status, t.outLen, t.job, Memory.read t.mem 0x2000 4)) =
      some (0x00000002#32, 4#32, none, [0x5A#8, 0x6D#8, 0x39#8, 0x76#8]) := by decide

/-- Program P2: `Zm8=` gives `fo`, and the byte past the result keeps 0xEE. -/
theorem test_decode_completion :
    after (step (zm8.accept .decode)) (fun t => (t.status, t.outLen, Memory.read t.mem 0x2000 3)) =
      some (0x00000002#32, 2#32, [0x66#8, 0x6F#8, 0xEE#8]) := by decide

/-- Program P3: `Z!9v` gives STATUS 0x00000012 and OUT_LEN 0. -/
theorem test_decode_error :
    after (step (bad.accept .decode)) (fun t => (t.status, t.outLen, t.job)) = some (0x00000012#32, 0#32, none) := by decide

/-- Refused words (program P5, lines 1 and 6). -/
theorem test_refused_words :
    after (cmdWrite 3#32 State.reset) (fun t => t.status) = some 0x00000022#32 ∧
      after (cmdWrite 1#32 overlapping) (fun t => (t.status, t.mem)) = some (0x00000032#32, []) := by decide

/-- Register accesses of section 2.10: a reserved offset, a write to STATUS, a write while BUSY, a 16-bit write, offset 0x06. -/
theorem test_register_access :
    after (regRead 32 0x18#6 foo) (fun t => t.reply) = some (some (.word 0#32)) ∧
      after (regWrite 32 0x04#6 2#32 foo) (fun t => t.status) = some 0#32 ∧
      after (regWrite 32 0x0C#6 99#32 (foo.accept .encode)) (fun t => t.srcLen) = some 3#32 ∧
      after (regWrite 16 0x04#6 0#32 foo) (fun t => (t.faults.unsupportedRegisterAccess, t.status)) = some (true, 0#32) ∧
      after (regRead 32 0x06#6 foo) (fun t => t.faults.unsupportedRegisterAccess) = some true := by decide

/-- The bus addresses of 95_test_vectors.md section 0, with `B64_REG_BASE` = 0x40000000. -/
theorem test_bus_addresses :
    (wr .cmd 1#32).busAddr Config.examplePlatform = some 0x40000000#32 ∧
      (rd .status).busAddr Config.examplePlatform = some 0x40000004#32 ∧
      (rd .outLen).busAddr Config.examplePlatform = some 0x40000014#32 := by decide

/-- The hazards of section 2.12: stores into the source window, the destination window, outside both; a bus error. -/
theorem test_hazards :
    after (hostStore 0x1001#32 0#8 (foo.accept .encode)) (fun t => t.faults.windowHazard) = some true ∧
      after (hostStore 0x2003#32 0#8 (foo.accept .encode)) (fun t => t.faults.windowHazard) = some true ∧
      after (hostStore 0x3000#32 1#8 (foo.accept .encode)) (fun t => (t.faults.windowHazard, Memory.get t.mem 0x3000)) =
        some (false, 1#8) ∧
      after (hostLoad 0x1000#32 (foo.accept .encode)) (fun t => t.reply) = some (some (.byte 0x66#8)) ∧
      after (engineTurn ((idle 0x40000040#32 1#32 0x1000#32 []).accept .encode)) (fun t => t.faults.engineBusError) =
        some true := by decide

/-- RESET of a job in flight (section 2.11): registers 0, JOB None, the source window unchanged. -/
theorem test_reset_event :
    after (step { foo.accept .encode with inputs := [.reset] })
        (fun t => (t.status, t.srcAddr, t.srcLen, t.dstAddr, t.job)) = some (0#32, 0#32, 0#32, 0#32, none) := by decide

/-! ## Witnesses: for each statement with hypotheses, a state and operands that meet all of them -/

theorem witness_CommandDecoder : cmdDecode 2#32 = .command .decode ∧ Instr.decode.wf = true := by decide

theorem witness_IssueProcedure_busy : (foo.accept .encode).busy = true := by decide

theorem witness_IssueProcedure_illegal : overlapping.busy = false ∧ cmdDecode 0xFFFFFFFF#32 = .illegal := by decide

theorem witness_IssueProcedure_refused :
    overlapping.busy = false ∧ cmdDecode 1#32 = .command .encode ∧
      windowOK (Platform.regBase overlapping.platform).toNat .encode overlapping.srcAddr.toNat overlapping.srcLen.toNat
        overlapping.dstAddr.toNat = false := by decide

theorem witness_IssueProcedure_accepted :
    zm8.busy = false ∧ cmdDecode 2#32 = .command .decode ∧
      windowOK (Platform.regBase zm8.platform).toNat .decode zm8.srcAddr.toNat zm8.srcLen.toNat zm8.dstAddr.toNat = true := by
  decide

theorem witness_EncodeIsAccepted :
    foo.busy = false ∧
      windowOK (Platform.regBase foo.platform).toNat .encode foo.srcAddr.toNat foo.srcLen.toNat foo.dstAddr.toNat = true := by
  decide

theorem witness_DecodeIsAccepted :
    zm8.busy = false ∧
      windowOK (Platform.regBase zm8.platform).toNat .decode zm8.srcAddr.toNat zm8.srcLen.toNat zm8.dstAddr.toNat = true := by
  decide

theorem witness_WindowErrorAtIssue :
    overlapping.busy = false ∧
      windowOK (Platform.regBase overlapping.platform).toNat .encode overlapping.srcAddr.toNat overlapping.srcLen.toNat
        overlapping.dstAddr.toNat = false := by decide

theorem witness_IllegalWordEndsAtOnce : 3#32 ≠ 0x00000001#32 ∧ 3#32 ≠ 0x00000002#32 ∧ State.reset.busy = false := by decide

theorem witness_CommandFrame :
    exec .encode foo = .next (foo.accept .encode) ∧ exec .decode zm8 = .next (zm8.accept .decode) := ⟨rfl, rfl⟩

theorem witness_WindowRuleAtTheEnds : 3221225469 < 3221225470 ∧ wlen .encode 3221225470 = 2 ^ 32 := by decide

theorem witness_LookupLaw : indexOf 0x2F#8 = .value 63#6 := by decide

theorem witness_ForwardTableIsInjective : valueOf 63#6 = valueOf 63#6 := rfl

/-- Full groups and each kind of tail. -/
theorem witness_EncWorksGroupByGroup :
    (0 < [1#8, 2#8, 3#8].length / 3 ∧ [1#8, 2#8, 3#8].length % 3 = 0) ∧ [1#8, 2#8].length % 3 = 2 ∧ [1#8].length % 3 = 1 := by
  decide

/-- The two padded texts and the full one. -/
theorem witness_DecWorksGroupByGroup :
    dec [0x5A#8, 0x67#8, 0x3D#8, 0x3D#8] = .ok [0x66#8] ∧ dec [0x5A#8, 0x6D#8, 0x38#8, 0x3D#8] = .ok [0x66#8, 0x6F#8] ∧
      dec [0x5A#8, 0x6D#8, 0x39#8, 0x76#8] = .ok [0x66#8, 0x6F#8, 0x6F#8] ∧
      0 < [0x5A#8, 0x67#8, 0x3D#8, 0x3D#8].length / 4 := by decide

theorem witness_Reencoding_canonical :
    dec [0x5A#8, 0x67#8, 0x3D#8, 0x3D#8] = .ok [0x66#8] ∧ canonical [0x5A#8, 0x67#8, 0x3D#8, 0x3D#8] = true := by decide

theorem witness_Reencoding_other :
    dec [0x5A#8, 0x6D#8, 0x39#8, 0x3D#8] = .ok [0x66#8, 0x6F#8] ∧ canonical [0x5A#8, 0x6D#8, 0x39#8, 0x3D#8] = false := by
  decide

theorem witness_EncodeCompletion :
    (foo.accept .encode).Inv ∧ (foo.accept .encode).job = some fooJob ∧ fooJob.op = .encode ∧
      jobAdmitted foo.platform fooJob = true ∧ jobOrdinary foo.platform fooJob = true := by decide

/-- A window past the admitted memory (95_test_vectors.md section 2.9, after the table). -/
theorem witness_EncodeCompletion_notAdmitted :
    ((idle 0x40000040#32 1#32 0x1000#32 []).accept .encode).Inv ∧
      jobAdmitted Config.examplePlatform ((idle 0x40000040#32 1#32 0x1000#32 []).latch .encode) = false ∧
      ((idle 0x40000040#32 1#32 0x1000#32 []).latch .encode).op = .encode := by decide

theorem witness_DecodeCompletionWithBytes :
    (zm8.accept .decode).Inv ∧ (zm8.accept .decode).job = some (zm8.latch .decode) ∧ (zm8.latch .decode).op = .decode ∧
      jobAdmitted zm8.platform (zm8.latch .decode) = true ∧ jobOrdinary zm8.platform (zm8.latch .decode) = true ∧
      dec (Memory.read zm8.mem 0x1000 4) = .ok [0x66#8, 0x6F#8] := by decide

theorem witness_DecodeCompletionWithInvalidInput :
    (bad.accept .decode).Inv ∧ (bad.accept .decode).job = some (bad.latch .decode) ∧ (bad.latch .decode).op = .decode ∧
      jobAdmitted bad.platform (bad.latch .decode) = true ∧ jobOrdinary bad.platform (bad.latch .decode) = true ∧
      dec (Memory.read bad.mem 0x1000 4) = .invalidInput := by decide

theorem witness_BusErrorIsRecorded :
    ((idle 0x40000040#32 1#32 0x1000#32 []).accept .encode).job = some ((idle 0x40000040#32 1#32 0x1000#32 []).latch .encode) ∧
      inWindow 0x40000040 1 0x40000040 = true ∧ memAdmits Config.examplePlatform 0x40000040 .read = false ∧
      memAdmits Config.examplePlatform 0x40000000 .write = false ∧ inWindow 0x3FFFFFFD 4 0x40000000 = true := by decide

theorem witness_EngineIsQuietWithoutAJob : foo.Inv ∧ foo.busy = false := by decide

theorem witness_EncodeCommand :
    foo.Inv ∧ foo.busy = false ∧
      windowOK (Platform.regBase foo.platform).toNat .encode foo.srcAddr.toNat foo.srcLen.toNat foo.dstAddr.toNat = true ∧
      foo.ordinaryWindows .encode = true := by decide

theorem witness_DecodeCommand :
    zm8.Inv ∧ zm8.busy = false ∧
      windowOK (Platform.regBase zm8.platform).toNat .decode zm8.srcAddr.toNat zm8.srcLen.toNat zm8.dstAddr.toNat = true ∧
      zm8.ordinaryWindows .decode = true ∧
      dec (Memory.read zm8.mem zm8.srcAddr.toNat zm8.srcLen.toNat) = .ok [0x66#8, 0x6F#8] := by decide

theorem witness_DecodeCommand_invalid :
    bad.Inv ∧ bad.busy = false ∧
      windowOK (Platform.regBase bad.platform).toNat .decode bad.srcAddr.toNat bad.srcLen.toNat bad.dstAddr.toNat = true ∧
      bad.ordinaryWindows .decode = true ∧
      dec (Memory.read bad.mem bad.srcAddr.toNat bad.srcLen.toNat) = .invalidInput := by decide

/-- Program P4's placement: source 0x1000, text 0x2000, result 0x3000, 5 bytes, on the example platform. -/
theorem witness_RoundTripThroughMemory :
    foo.Inv ∧ foo.busy = false ∧ windowOK (Platform.regBase foo.platform).toNat .encode 0x1000 5 0x2000 = true ∧
      windowOK (Platform.regBase foo.platform).toNat .decode 0x2000 (wlen .encode 5) 0x3000 = true ∧
      (∀ x, inWindow 0x1000 5 x = true → memAdmits foo.platform x .read = true ∧ isOrdinary foo.platform x = true) ∧
      (∀ x, inWindow 0x2000 (wlen .encode 5) x = true →
        memAdmits foo.platform x .read = true ∧ memAdmits foo.platform x .write = true ∧ isOrdinary foo.platform x = true) ∧
      ∀ x, inWindow 0x3000 (5 + 2) x = true → memAdmits foo.platform x .write = true ∧ isOrdinary foo.platform x = true := by
  have h : ∀ x, x < 0x40000000 →
      memAdmits foo.platform x .read = true ∧ memAdmits foo.platform x .write = true ∧ isOrdinary foo.platform x = true := by
    intro x hx
    simp [foo, idle, State.reset, Config.examplePlatform, memAdmits, isOrdinary, Region.covers, hx]
  have lt : ∀ {a n x : Nat}, inWindow a n x = true → x < a + n := by
    intro a n x hx
    simp only [inWindow, Bool.and_eq_true, decide_eq_true_eq] at hx
    exact hx.2
  exact ⟨by decide, by decide, by decide, by decide,
    fun x hx => ⟨(h x (Nat.lt_trans (lt hx) (by decide))).1, (h x (Nat.lt_trans (lt hx) (by decide))).2.2⟩,
    fun x hx => h x (Nat.lt_trans (lt hx) (by decide)),
    fun x hx => (h x (Nat.lt_trans (lt hx) (by decide))).2⟩

theorem witness_ResultDependsOnlyOnTheSourceBytes :
    (foo.accept .encode).Inv ∧ ({ foo.accept .encode with draws := 7 } : State).Inv ∧
      (foo.accept .encode).job = some fooJob ∧ jobAdmitted foo.platform fooJob = true ∧
      engineTurn (foo.accept .encode) = .next ((foo.accept .encode).finishOk fooJob (enc (Memory.read fooMem 0x1000 3))) ∧
      engineTurn { foo.accept .encode with draws := 7 } =
        .next (({ foo.accept .encode with draws := 7 } : State).finishOk fooJob (enc (Memory.read fooMem 0x1000 3))) := by
  refine ⟨by decide, by decide, by decide, by decide, rfl, rfl⟩

/-- The first and the last reserved offset. -/
theorem witness_RegisterReads :
    0x18 ≤ (0x18#6).toNat ∧ (0x18#6).toNat % 4 = 0 ∧ 0x18 ≤ (0x3C#6).toNat ∧ (0x3C#6).toNat % 4 = 0 := by decide

theorem witness_RegisterWrites : foo.busy = false := by decide

theorem witness_ReservedOffsetsAndBits : foo.Inv ∧ 0x18 ≤ (0x3C#6).toNat ∧ (0x3C#6).toNat % 4 = 0 := by decide

theorem witness_RegisterAccessWhileBusy :
    (foo.accept .encode).Inv ∧ (foo.accept .encode).busy = true ∧ (0x00#6).toNat % 4 = 0 ∧ (0x3C#6).toNat % 4 = 0 := by decide

theorem witness_UnsupportedRegisterAccess : (16 ≠ 32 ∨ (0x04#6).toNat % 4 ≠ 0) ∧ (32 ≠ 32 ∨ (0x3F#6).toNat % 4 ≠ 0) := by decide

theorem witness_StatusWordsAndJob : (foo.accept .encode).Inv ∧ State.reset.Inv := by decide

/-- The last byte of each window. -/
theorem witness_HostStoreIntoAnActiveWindow :
    (foo.accept .encode).Inv ∧ (foo.accept .encode).job = some fooJob ∧ inWindow 0x1000 3 (0x1002#32).toNat = true ∧
      inWindow 0x2000 4 (0x2003#32).toNat = true ∧ isOrdinary foo.platform 0x1002 = true ∧
      isOrdinary foo.platform 0x2003 = true := by decide

theorem witness_HostLoadOfAnActiveWindow :
    (foo.accept .encode).Inv ∧ (foo.accept .encode).job = some fooJob ∧ isOrdinary foo.platform 0x2000 = true ∧
      inWindow 0x2000 4 (0x2000#32).toNat = true ∧ isOrdinary foo.platform 0x1000 = true ∧
      inWindow 0x1000 3 (0x1000#32).toNat = true := by decide

/-- With no job, the last byte below the register window; with a job in flight, 0x3000 (95_test_vectors.md section 2.12) and
the first byte past the destination window; the first and the last byte of the register window. -/
theorem witness_HostByteAccesses :
    (foo.Inv ∧ foo.job = none ∧ Platform.inRegWindow foo.platform (0x3FFFFFFF#32).toNat = false ∧
      isOrdinary foo.platform (0x3FFFFFFF#32).toNat = true) ∧
    ((foo.accept .encode).Inv ∧ (foo.accept .encode).job = some fooJob ∧
      fooJob.inSrc (0x3000#32).toNat = false ∧ fooJob.inDst (0x3000#32).toNat = false ∧
      fooJob.inSrc (0x2004#32).toNat = false ∧ fooJob.inDst (0x2004#32).toNat = false ∧
      Platform.inRegWindow foo.platform (0x2004#32).toNat = false ∧ isOrdinary foo.platform (0x2004#32).toNat = true) ∧
    Platform.inRegWindow foo.platform (0x40000000#32).toNat = true ∧
    Platform.inRegWindow foo.platform (0x4000003F#32).toNat = true := by decide

theorem witness_ResetEffect :
    (foo.accept .encode).Inv ∧ (foo.accept .encode).job = some fooJob ∧ inWindow 0x2000 4 0x2004 = false ∧ 3 < fooJob.wlen ∧
      foo.Inv ∧ foo.job = none ∧ 0x18 ≤ (0x3C#6).toNat ∧ (0x3C#6).toNat % 4 = 0 := by decide

theorem witness_StepRunsTheDecodedCommand :
    (foo.withFetchWord 32 1).inputs = wr .cmd 1#32 :: [] ∧ cmdDecode 1#32 = .command .encode ∧
      decodeTableWord 32 2 = some .decode := by decide

/-- Also the witness of `NoStepChangesThePlatform`. -/
theorem witness_EveryStep :
    foo.Inv ∧ step (foo.withFetchWord 32 1) = .next (foo.accept .encode) := ⟨by decide, rfl⟩

/-- Both ways a byte may change: the engine writes its window, the host stores a byte. -/
theorem witness_StepChangesOnlyTheWindowOrTheStoredByte :
    (foo.accept .encode).Inv ∧
      after (step (foo.accept .encode)) (fun t => Memory.get t.mem 0x2003) = some 0x76#8 ∧
      Memory.get (foo.accept .encode).mem 0x2003 ≠ 0x76#8 ∧
      after (step { foo with inputs := [.store 0x3000#32 1#8] }) (fun t => Memory.get t.mem 0x3000) = some 1#8 ∧
      Memory.get foo.mem 0x3000 ≠ 1#8 := by decide

theorem witness_NoStepClearsAFault :
    (foo.recordFault .windowHazard).faults.has .windowHazard = true ∧
      step (foo.recordFault .windowHazard) = .next (foo.recordFault .windowHazard) := ⟨by decide, rfl⟩

/-- A CMD write, the engine, and RESET each change STATUS. -/
theorem witness_OnlyThreeEventsChangeStatus :
    after (step (foo.withFetchWord 32 1)) (fun t => t.status) = some 1#32 ∧ foo.status ≠ 1#32 ∧
      after (step (foo.accept .encode)) (fun t => t.status) = some 2#32 ∧ (foo.accept .encode).status ≠ 2#32 ∧
      after (step { foo.accept .encode with inputs := [.reset] }) (fun t => t.status) = some 0#32 ∧
      (foo.accept .encode).status ≠ 0#32 := by decide

theorem witness_WaitDoneEndsAfterACommand_accepted :
    ({ foo.accept .encode with inputs := [.waitDone] } : State).Inv ∧ (foo.accept .encode).job = some fooJob ∧
      jobAdmitted foo.platform fooJob = true ∧ jobOrdinary foo.platform fooJob = true ∧
      ({ foo.accept .encode with inputs := [.waitDone] } : State).inputs = .waitDone :: [] := by decide

/-- An illegal word, and a legal one whose windows overlap. -/
theorem witness_WaitDoneEndsAfterACommand_refused :
    ({ foo with inputs := [wr .cmd 3#32, .waitDone] } : State).Inv ∧ foo.busy = false ∧ cmdDecode 3#32 = .illegal ∧
      ({ overlapping with inputs := [wr .cmd 1#32, .waitDone] } : State).Inv ∧ overlapping.busy = false ∧
      cmdDecode 1#32 = .command .encode ∧
      windowOK (Platform.regBase overlapping.platform).toNat .encode overlapping.srcAddr.toNat overlapping.srcLen.toNat
        overlapping.dstAddr.toNat = false := by decide

theorem witness_WaitDoneNeverEnds :
    ({ State.reset with inputs := [.waitDone] } : State).status = 0#32 ∧
      ({ State.reset with inputs := [.waitDone] } : State).job = none ∧
      ({ State.reset with inputs := [.waitDone] } : State).inputs = .waitDone :: [] := by decide

/-! ### An execution: the host polls, the engine completes the job, the host polls again and is done. -/

/-- The engine moves once, at point 1. -/
def fairChoice (k : Nat) : Agent := if k = 1 then .engine else .host

def fairRun (k : Nat) : State :=
  match k with
  | 0 => { foo.accept .encode with inputs := [.waitDone] }
  | 1 => { foo.accept .encode with inputs := [.waitDone], reply := some (.word 1#32) }
  | 2 =>
    { (foo.accept .encode).finishOk fooJob [0x5A#8, 0x6D#8, 0x39#8, 0x76#8] with
      inputs := [.waitDone], reply := some (.word 1#32) }
  | _ =>
    { (foo.accept .encode).finishOk fooJob [0x5A#8, 0x6D#8, 0x39#8, 0x76#8] with
      inputs := [], reply := some (.word 2#32) }

theorem fairRun_idle (k : Nat) : (fairRun (k + 2)).job = none := by
  cases k <;> rfl

theorem witness_WaitDoneEndsInAFairExecution :
    Execution fairChoice fairRun ∧ FairEngine fairChoice fairRun ∧ HostRuns fairChoice ∧ OrdinaryWindows fairRun ∧
      (fairRun 0).Inv ∧ (fairRun 0).job = some fooJob ∧ (fairRun 0).inputs = .waitDone :: [] := by
  refine ⟨?_, fun k h => absurd (fairRun_idle k) (h (k + 2) (by omega)), fun k => ⟨k + 2, by omega, ?_⟩, ?_, by decide, rfl, rfl⟩
  · intro k
    match k with
    | 0 => rfl
    | 1 => rfl
    | 2 => rfl
    | k + 3 => simp [fairChoice, fairRun, agentTurn]
  · simp [fairChoice]
  · intro k j hj
    match k with
    | 0 => cases hj; decide
    | 1 => cases hj; decide
    | k + 2 => rw [fairRun_idle] at hj; cases hj

/-- 70_reset_and_hazards.md R117 needs its fairness: where only the host moves, the poll comes back for ever. -/
theorem test_unfair_wait_never_ends : Execution (fun _ => .host) (fun _ => fairRun 1) := by
  intro k
  exact agentTurn_wait (s := fairRun 1) (rest := []) rfl

/-- The execution above has the ordering of 20_memory.md R43. -/
theorem test_platform_ordering : PlatformOrdering fairChoice fairRun := by
  refine execution_platformOrdering witness_WaitDoneEndsInAFairExecution.1 fun k => ?_
  match k with
  | 0 => decide
  | 1 => decide
  | 2 => decide
  | k + 3 => exact (by decide : Memory.wf (fairRun 3).mem = true)

/-- A platform with a device byte at 0x1001: the job over it, and a load of it, are refused. -/
theorem test_not_ordinary :
    engineTurn { foo.accept .encode with
        platform := { foo.platform with regions := { base := 0x1001, size := 1, read := true, write := true, ordinary := false } ::
          foo.platform.regions } } = .refused .notOrdinaryMemory ∧
      hostLoad 0x1001#32 { foo with
        platform := { foo.platform with regions := [{ base := 0x1001, size := 1, read := true, write := true, ordinary := false }] } } =
          .refused .notOrdinaryMemory := ⟨rfl, rfl⟩

end Sys2Proof.Tests
end

section
/-! SUPPORT. No operation of the machine changes the field `platform`, one lemma per operation. -/

namespace Sys2Proof.Machine

@[simp] theorem State.finish_platform (s : State) (j : Job) : (s.finish j).platform = s.platform := by
  rcases s.finish_cases j with ⟨_, hf⟩ | ⟨_, _, _, hf⟩ | ⟨_, _, hf⟩ <;> simp [hf]

theorem engineTurn_platform {s t : State} (h : engineTurn s = .next t) : t.platform = s.platform := by
  rcases engineTurn_cases h with ⟨_, rfl⟩ | ⟨j, _, ⟨_, rfl⟩ | ⟨_, _, rfl⟩⟩
  · rfl
  · exact s.recordFault_platform .engineBusError
  · exact s.finish_platform j

theorem cmdWrite_platform {w : Word} {s t : State} (h : cmdWrite w s = .next t) : t.platform = s.platform := by
  rcases cmdWrite_cases h with ⟨_, rfl⟩ | ⟨_, ⟨i, _, _, rfl⟩ | rfl | rfl⟩
  · rfl
  · exact s.accept_platform i
  · exact s.report_platform .windowError 0
  · exact s.report_platform .illegalCommand 0

theorem regWrite_platform {width : Nat} {off : BitVec 6} {v : Word} {s t : State}
    (h : regWrite width off v s = .next t) : t.platform = s.platform := by
  rcases regWrite_cases h with rfl | rfl | ⟨_, _, _, hcmd⟩ | ⟨_, rfl | rfl | rfl⟩
  · rfl
  · exact s.recordFault_platform .unsupportedRegisterAccess
  · exact cmdWrite_platform hcmd
  · exact s.setSrcAddr_platform v
  · exact s.setSrcLen_platform v
  · exact s.setDstAddr_platform v

theorem regRead_platform {width : Nat} {off : BitVec 6} {s t : State} (h : regRead width off s = .next t) :
    t.platform = s.platform := by
  rcases regRead_cases h with rfl | rfl <;> simp

theorem hostStore_platform {a : Word} {b : Byte} {s t : State} (h : hostStore a b s = .next t) :
    t.platform = s.platform := by
  rcases hostStore_cases h with rfl | ⟨_, rfl⟩ | ⟨_, rfl⟩ <;> simp

theorem hostLoad_platform {a : Word} {s t : State} (h : hostLoad a s = .next t) : t.platform = s.platform := by
  rcases hostLoad_cases h with rfl | rfl | rfl <;> simp

@[simp] theorem waitDone_platform (rest : List Event) (s : State) : (waitDone rest s).platform = s.platform := by
  simp [waitDone]

theorem handle_platform {e : Event} {s t : State} (h : handle e s = .next t) : t.platform = s.platform := by
  cases e with
  | regWrite width off v => exact regWrite_platform h
  | regRead width off => exact regRead_platform h
  | store a b => exact hostStore_platform h
  | load a => exact hostLoad_platform h
  | waitDone => cases h; exact waitDone_platform s.inputs s
  | engine => exact engineTurn_platform h
  | reset => cases h; exact resetEvent_platform s

/-- Settles O56: a step is the engine's turn or the handling of one event over a state that differs only in its schedule, and
each of the two keeps the platform (log entry 1). -/
theorem noStepChangesThePlatform : Obligations.NoStepChangesThePlatform := by
  unfold Obligations.NoStepChangesThePlatform
  intro s t h
  rcases step_cases h with ⟨_, hengine⟩ | ⟨e, rest, _, hevent⟩
  · exact engineTurn_platform hengine
  · exact (handle_platform hevent).trans (s.setInputs_platform rest)

end Sys2Proof.Machine
end

section
/-! SUPPORT. The lengths of the codec's results against the destination window (20_memory.md R32). -/

namespace Sys2Proof.Machine

/-- An encoded text fills the destination window of its job (41_encode.md R73). -/
theorem enc_length (b : List Byte) : (enc b).length = wlen .encode b.length := by
  induction b using enc.induct with
  | case1 => simp [enc, wlen]
  | case2 b0 => simp [enc, encGroup1, wlen]
  | case3 b0 b1 => simp [enc, encGroup2, wlen]
  | case4 b0 b1 b2 rest ih =>
    simp only [enc, encGroup3, List.map_cons, List.map_nil, List.cons_append, List.nil_append, List.length_cons, ih, wlen]
    omega

/-- A group gives at most three bytes (42_decode.md R88). -/
theorem decGroup_length_le (e1 e2 e3 e4 : RevEntry) : (decGroup e1 e2 e3 e4).length ≤ 3 := by
  unfold decGroup
  split <;> simp [decGroup4, decGroup3, decGroup2]

/-- Bytes in front of a result: they stand before the output of a success, and an error stays one. -/
theorem CodecResult.prepend_eq_ok {r : CodecResult} {g out : List Byte} :
    r.prepend g = .ok out ↔ ∃ tail, r = .ok tail ∧ out = g ++ tail := by
  cases r <;> simp [CodecResult.prepend, eq_comm]

theorem decGroups_length_le {es : List RevEntry} {out : List Byte} (h : decGroups es = .ok out) :
    out.length ≤ wlen .decode es.length := by
  induction es using decGroups.induct generalizing out with
  | case1 e1 e2 e3 e4 rest hpad ih =>
    rw [decGroups, if_pos hpad, CodecResult.prepend_eq_ok] at h
    obtain ⟨tail, htail, rfl⟩ := h
    have hgroup := decGroup_length_le e1 e2 e3 e4
    have hrest := ih htail
    simp only [List.length_append, List.length_cons, wlen] at hrest ⊢
    omega
  | case2 e1 e2 e3 e4 rest hpad =>
    rw [decGroups, if_neg hpad] at h
    cases h
  | case3 es hshort =>
    rw [decGroups.eq_2 es hshort] at h
    cases h
    exact Nat.zero_le _

/-- The bytes of a text that decodes fit the destination window of its job (42_decode.md R89). -/
theorem dec_length_le {t out : List Byte} (h : dec t = .ok out) : out.length ≤ wlen .decode t.length := by
  unfold dec at h
  split at h
  · cases h
  · split at h
    · cases h
    · simpa using decGroups_length_le h

end Sys2Proof.Machine
end

section
/-! SUPPORT. The invariant, operation by operation: what each leaves of it. -/

namespace Sys2Proof.Machine

theorem State.Inv.wf {s : State} (h : s.Inv) : Memory.wf s.mem = true := h.1

/-! ## What the invariant does not speak of -/

theorem State.Inv.setInputs {s : State} (h : s.Inv) (v : List Event) : (s.setInputs v).Inv := h

theorem State.Inv.setReply {s : State} (h : s.Inv) (v : Option Reply) : (s.setReply v).Inv := h

theorem State.Inv.setDraws {s : State} (h : s.Inv) (v : Nat) : (s.setDraws v).Inv := h

theorem State.Inv.recordFault {s : State} (h : s.Inv) (f : Fault) : (s.recordFault f).Inv := h

/-- Of memory the invariant asks the canonical form alone. -/
theorem State.Inv.setMem {s : State} {m : List Host.Cell} (h : s.Inv) (hm : Memory.wf m = true) : (s.setMem m).Inv := by
  obtain ⟨_, hstatus, hjob, hlen⟩ := h
  exact ⟨hm, hstatus, hjob, hlen⟩

/-- With BUSY = 0 the invariant does not speak of the parameter registers, since no job has latched them. -/
theorem State.Inv.of_not_busy {s t : State} (h : s.Inv) (hb : s.busy = false) (hm : t.mem = s.mem)
    (hs : t.status = s.status) (hj : t.job = s.job) (ho : t.outLen = s.outLen) : t.Inv := by
  have hnone : t.job = none := hj.trans (h.no_job hb)
  have hbt : t.busy = false := by rw [State.busy, hs]; exact hb
  obtain ⟨hmem, hstatus, _, hlen⟩ := h
  refine ⟨hm ▸ hmem, hs ▸ hstatus, by simp [State.jobAgrees, hnone, hbt], ?_⟩
  rwa [State.lengthAgrees, hs, ho]

/-! ## The end and the start of a command -/

theorem statusLegal_ended (c : ResultCode) : statusLegal (statusWord false true c) = true := by
  cases c <;> decide

/-- A report without a job meets the invariant, if only a success reports a length (10_state.md R19). -/
theorem State.report_inv {s : State} {c : ResultCode} {len : Nat} (hm : Memory.wf s.mem = true) (hj : s.job = none)
    (hlen : c = .ok ∨ len = 0) : (s.report c len).Inv := by
  refine ⟨hm, statusLegal_ended c, by simp [State.jobAgrees, State.busy, hj], ?_⟩
  rcases hlen with rfl | rfl <;> simp [State.lengthAgrees]

theorem State.accept_inv {s : State} {i : Instr} (hm : Memory.wf s.mem = true) (hw : s.windowOK i = true) :
    (s.accept i).Inv := by
  refine ⟨hm, (by decide : statusLegal (statusWord true false .ok) = true), ?_, by simp [State.lengthAgrees]⟩
  have hlatch : (s.accept i).latch i = s.latch i := rfl
  have hwindow : (s.accept i).windowOK i = true := hw
  have hop : (s.latch i).op = i := rfl
  simp [State.jobAgrees, State.busy, hop, hlatch, hwindow]

theorem State.finishOk_inv {s : State} {j : Job} {out : List Byte} (hm : Memory.wf s.mem = true)
    (hfit : j.dst.toNat + out.length ≤ 2 ^ 32) : (s.finishOk j out).Inv :=
  State.report_inv (s := (s.setMem _).setJob none) (Memory.write_wf hm hfit) rfl (.inl rfl)

theorem State.finishErr_inv {s : State} {j : Job} (hm : Memory.wf s.mem = true)
    (hfit : j.dst.toNat + j.wlen ≤ 2 ^ 32) : (s.finishErr j).Inv :=
  State.report_inv (s := (s.drawWindow j).setJob none) (Memory.write_wf hm (by simpa using hfit)) rfl (.inr rfl)

/-- A job that completes keeps the invariant: its result fits its destination window, which ends at or below 2^32. -/
theorem State.Inv.finish {s : State} {j : Job} (h : s.Inv) (hj : s.job = some j) : (s.finish j).Inv := by
  obtain ⟨_, hfit, _, hwlen⟩ := h.bounds hj
  rcases s.finish_cases j with ⟨hop, hf⟩ | ⟨hop, out, hdec, hf⟩ | ⟨_, _, hf⟩ <;> rw [hf]
  · refine State.finishOk_inv h.wf ?_
    rwa [enc_length, Memory.read_length, ← hop, ← hwlen]
  · have hout := dec_length_le hdec
    rw [Memory.read_length, ← hop, ← hwlen] at hout
    exact State.finishOk_inv h.wf (by omega)
  · exact State.finishErr_inv h.wf hfit

/-! ## The events -/

theorem engineTurn_inv {s t : State} (hs : s.Inv) (h : engineTurn s = .next t) : t.Inv := by
  rcases engineTurn_cases h with ⟨_, rfl⟩ | ⟨j, hj, ⟨_, rfl⟩ | ⟨_, _, rfl⟩⟩
  · exact hs
  · exact hs.recordFault .engineBusError
  · exact hs.finish hj

theorem cmdWrite_inv {w : Word} {s t : State} (hs : s.Inv) (h : cmdWrite w s = .next t) : t.Inv := by
  rcases cmdWrite_cases h with ⟨_, rfl⟩ | ⟨hb, ⟨i, _, hw, rfl⟩ | rfl | rfl⟩
  · exact hs
  · exact State.accept_inv hs.wf hw
  · exact State.report_inv hs.wf (hs.no_job hb) (.inr rfl)
  · exact State.report_inv hs.wf (hs.no_job hb) (.inr rfl)

theorem regWrite_inv {width : Nat} {off : BitVec 6} {v : Word} {s t : State} (hs : s.Inv)
    (h : regWrite width off v s = .next t) : t.Inv := by
  rcases regWrite_cases h with rfl | rfl | ⟨_, _, _, hcmd⟩ | ⟨hb, rfl | rfl | rfl⟩
  · exact hs
  · exact hs.recordFault .unsupportedRegisterAccess
  · exact cmdWrite_inv hs hcmd
  · exact hs.of_not_busy hb rfl rfl rfl rfl
  · exact hs.of_not_busy hb rfl rfl rfl rfl
  · exact hs.of_not_busy hb rfl rfl rfl rfl

theorem regRead_inv {width : Nat} {off : BitVec 6} {s t : State} (hs : s.Inv) (h : regRead width off s = .next t) :
    t.Inv := by
  rcases regRead_cases h with rfl | rfl
  · exact (hs.recordFault .unsupportedRegisterAccess).setReply none
  · exact hs.setReply _

theorem hostStore_inv {a : Word} {b : Byte} {s t : State} (hs : s.Inv) (h : hostStore a b s = .next t) : t.Inv := by
  have hm : Memory.wf (Memory.set s.mem a.toNat b) = true := Memory.set_wf hs.wf a.isLt
  rcases hostStore_cases h with rfl | ⟨_, rfl⟩ | ⟨_, rfl⟩
  · exact hs.recordFault .unsupportedRegisterAccess
  · exact (hs.recordFault .windowHazard).setMem hm
  · exact hs.setMem hm

theorem hostLoad_inv {a : Word} {s t : State} (hs : s.Inv) (h : hostLoad a s = .next t) : t.Inv := by
  rcases hostLoad_cases h with rfl | rfl | rfl
  · exact (hs.recordFault .unsupportedRegisterAccess).setReply none
  · exact (hs.setReply _).setDraws _
  · exact hs.setReply _

theorem waitDone_inv {rest : List Event} {s : State} (hs : s.Inv) : (waitDone rest s).Inv :=
  (hs.setReply _).setInputs _

/-- The draws of a reset during a job stay below 2^32, since the destination window does (20_memory.md R33). -/
theorem resetEvent_inv {s : State} (hs : s.Inv) : (resetEvent s).Inv := by
  refine ⟨?_, (by decide : statusLegal 0#32 = true), by simp [State.jobAgrees, State.busy, statusBusy],
    by simp [State.lengthAgrees]⟩
  cases hj : s.job with
  | none => rw [resetEvent_mem_idle s hj]; exact hs.wf
  | some j =>
    rw [resetEvent_mem_job s hj]
    obtain ⟨_, hfit, _, _⟩ := hs.bounds hj
    exact Memory.write_wf hs.wf (by simpa using hfit)

theorem handle_inv {e : Event} {s t : State} (hs : s.Inv) (h : handle e s = .next t) : t.Inv := by
  cases e with
  | regWrite width off v => exact regWrite_inv hs h
  | regRead width off => exact regRead_inv hs h
  | store a b => exact hostStore_inv hs h
  | load a => exact hostLoad_inv hs h
  | waitDone => cases h; exact waitDone_inv hs
  | engine => exact engineTurn_inv hs h
  | reset => cases h; exact resetEvent_inv hs

/-- Settles O52: a step is the engine's turn or the handling of one event, and each of the two keeps the invariant. -/
theorem everyStepKeepsTheInvariant : Obligations.EveryStepKeepsTheInvariant := by
  unfold Obligations.EveryStepKeepsTheInvariant
  intro s t hs h
  rcases step_cases h with ⟨_, hengine⟩ | ⟨e, rest, _, hevent⟩
  · exact engineTurn_inv hs hengine
  · exact handle_inv (hs.setInputs rest) hevent

end Sys2Proof.Machine
end

section
/-! SUPPORT. The register window: its accesses case by case, and STATUS. -/

namespace Sys2Proof.Machine

/-! ## Accesses -/

theorem supportedAccess_iff {width : Nat} {off : BitVec 6} :
    supportedAccess width off = true ↔ width = 32 ∧ off.toNat % 4 = 0 := by simp [supportedAccess]

theorem supportedAccess_eq_false {width : Nat} {off : BitVec 6} (h : width ≠ 32 ∨ off.toNat % 4 ≠ 0) :
    supportedAccess width off = false := by
  rw [Bool.eq_false_iff, ne_eq, supportedAccess_iff]
  omega

/-- Every offset from 0x18 on is reserved (10_state.md R20). -/
theorem Reg.at_eq_reserved {off : BitVec 6} : 0x18 ≤ off.toNat → Reg.at off = .reserved := by
  revert off
  decide

theorem regRead_supported {off : BitVec 6} {s : State} (hoff : off.toNat % 4 = 0) :
    regRead 32 off s = .next (s.setReply (some (.word (s.readReg (Reg.at off))))) := by
  simp [regRead, supportedAccess_iff.2 ⟨rfl, hoff⟩]

theorem regRead_unsupported {width : Nat} {off : BitVec 6} {s : State} (h : width ≠ 32 ∨ off.toNat % 4 ≠ 0) :
    regRead width off s = .next ((s.recordFault .unsupportedRegisterAccess).setReply none) := by
  simp [regRead, supportedAccess_eq_false h]

theorem regWrite_unsupported {width : Nat} {off : BitVec 6} {v : Word} {s : State} (h : width ≠ 32 ∨ off.toNat % 4 ≠ 0) :
    regWrite width off v s = .next (s.recordFault .unsupportedRegisterAccess) := by
  simp [regWrite, supportedAccess_eq_false h]

theorem regWrite_cmd {w : Word} {s : State} : regWrite 32 0x00#6 w s = cmdWrite w s := rfl

theorem regWrite_of_not_busy {off : BitVec 6} {v : Word} {s : State} (hoff : off.toNat % 4 = 0)
    (hcmd : Reg.at off ≠ .cmd) (hb : s.busy = false) : regWrite 32 off v s = .next (s.writeReg (Reg.at off) v) := by
  simp [regWrite, supportedAccess_iff.2 ⟨rfl, hoff⟩, hcmd, hb]

theorem cmdWrite_command {w : Word} {i : Instr} {s : State} (h : cmdDecode w = .command i) :
    cmdWrite w s = exec i s := by simp [cmdWrite, h]

theorem cmdWrite_illegal {w : Word} {s : State} (h : cmdDecode w = .illegal) : cmdWrite w s = issueIllegal s := by
  simp [cmdWrite, h]

theorem cmdWrite_busy {w : Word} {s : State} (hb : s.busy = true) : cmdWrite w s = .next s := by
  cases hw : cmdDecode w with
  | command i => rw [cmdWrite_command hw, exec_eq_issue, issue_busy hb]
  | illegal => simp [cmdWrite_illegal hw, issueIllegal, hb]

/-- While BUSY = 1 every register write is ignored (10_state.md R22). -/
theorem regWrite_busy {off : BitVec 6} {v : Word} {s : State} (hoff : off.toNat % 4 = 0) (hb : s.busy = true) :
    regWrite 32 off v s = .next s := by
  by_cases hcmd : off = 0x00#6
  · rw [hcmd, regWrite_cmd, cmdWrite_busy hb]
  · simp [regWrite, supportedAccess_iff.2 ⟨rfl, hoff⟩, mt Reg.at_eq_cmd.1 hcmd, hb]

/-- A write of a reserved offset is ignored, whatever BUSY is (10_state.md R20). -/
theorem regWrite_reserved {off : BitVec 6} {v : Word} {s : State} (hres : Reg.at off = .reserved)
    (hoff : off.toNat % 4 = 0) : regWrite 32 off v s = .next s := by
  cases hb : s.busy with
  | true => exact regWrite_busy hoff hb
  | false => rw [regWrite_of_not_busy hoff (by simp [hres]) hb, hres]; rfl

/-! ## STATUS -/

/-- The six STATUS words (10_state.md R15). -/
theorem statusLegal_iff {w : Word} :
    statusLegal w = true ↔ w = 0x00000000#32 ∨ w = 0x00000001#32 ∨ w = 0x00000002#32 ∨ w = 0x00000012#32 ∨
      w = 0x00000022#32 ∨ w = 0x00000032#32 := by
  simp [statusLegal, statusWord, ResultCode.bits, or_assoc]

theorem State.Inv.status_words {s : State} (h : s.Inv) :
    s.status = 0x00000000#32 ∨ s.status = 0x00000001#32 ∨ s.status = 0x00000002#32 ∨ s.status = 0x00000012#32 ∨
      s.status = 0x00000022#32 ∨ s.status = 0x00000032#32 := by
  obtain ⟨_, hstatus, _, _⟩ := h
  exact statusLegal_iff.1 hstatus

theorem State.Inv.job_iff_busy {s : State} (h : s.Inv) : s.job ≠ none ↔ s.busy = true := by
  cases hj : s.job with
  | none => simp [h.idle hj]
  | some j =>
    obtain ⟨hb, _, _, _⟩ := h.job hj
    simp [hb]

theorem State.Inv.status_of_busy {s : State} (h : s.Inv) (hb : s.busy = true) : s.status = 0x00000001#32 := by
  unfold State.busy at hb
  rcases h.status_words with hs | hs | hs | hs | hs | hs <;> rw [hs] at hb ⊢ <;> simp [statusBusy] at hb

/-! ## The statements about the register window -/

/-- Settles O39: each read is a supported one, of the register at its offset. -/
theorem registerReads : Obligations.RegisterReads := by
  unfold Obligations.RegisterReads
  intro s
  refine ⟨regRead_supported rfl, regRead_supported rfl, regRead_supported rfl, regRead_supported rfl,
    regRead_supported rfl, regRead_supported rfl, fun off hres hoff => ?_⟩
  rw [regRead_supported hoff, Reg.at_eq_reserved hres]
  rfl

/-- Settles O40: each write is a supported one, of a register other than CMD. -/
theorem registerWrites : Obligations.RegisterWrites := by
  unfold Obligations.RegisterWrites
  intro s v hb
  exact ⟨regWrite_of_not_busy rfl (by decide) hb, regWrite_of_not_busy rfl (by decide) hb,
    regWrite_of_not_busy rfl (by decide) hb, regWrite_of_not_busy rfl (by decide) hb,
    regWrite_of_not_busy rfl (by decide) hb⟩

/-- Settles O41: no register stands at a reserved offset, and each of the six STATUS words has its reserved bits 0. -/
theorem reservedOffsetsAndBits : Obligations.ReservedOffsetsAndBits := by
  unfold Obligations.ReservedOffsetsAndBits
  intro s hs
  refine ⟨fun off v hres hoff => ⟨regWrite_reserved (Reg.at_eq_reserved hres) hoff, ?_⟩, ?_⟩
  · rw [regRead_supported hoff, Reg.at_eq_reserved hres]
    rfl
  · rcases hs.status_words with h | h | h | h | h | h <;> rw [h] <;> decide

/-- Settles O42: with BUSY = 1 there is a job, latched from the registers, which therefore still hold its operands. -/
theorem registerAccessWhileBusy : Obligations.RegisterAccessWhileBusy := by
  unfold Obligations.RegisterAccessWhileBusy
  intro s hs hb
  refine ⟨fun off v hoff => regWrite_busy hoff hb, ?_⟩
  obtain ⟨j, hj⟩ := Option.ne_none_iff_exists'.1 (hs.job_iff_busy.2 hb)
  obtain ⟨_, hlatch, _, hlen⟩ := hs.job hj
  have hstatus := hs.status_of_busy hb
  refine ⟨j, hj, ?_⟩
  rw [hlatch, ← hstatus, ← hlen]
  exact ⟨regRead_supported rfl, regRead_supported rfl, regRead_supported rfl, regRead_supported rfl,
    regRead_supported rfl⟩

/-- Settles O43: both accesses only record the fault; the read also leaves the host without a datum. -/
theorem unsupportedRegisterAccess : Obligations.UnsupportedRegisterAccess := by
  unfold Obligations.UnsupportedRegisterAccess
  intro s width off v h
  exact ⟨regWrite_unsupported h, _, regRead_unsupported h, rfl, rfl, rfl, rfl, rfl, rfl, rfl, rfl⟩

/-- Settles O44: BUSY leaves one STATUS word, in which DONE is 0. -/
theorem statusWordsAndJob : Obligations.StatusWordsAndJob := by
  unfold Obligations.StatusWordsAndJob
  intro s hs
  refine ⟨hs.status_words, fun ⟨hb, hd⟩ => ?_, hs.job_iff_busy⟩
  rw [State.done, hs.status_of_busy hb] at hd
  exact absurd hd (by decide)

end Sys2Proof.Machine
end

section
/-! SUPPORT. Host byte accesses outside the windows of a job in flight. -/

namespace Sys2Proof.Machine

theorem hostStore_regWindow {a : Word} {b : Byte} {s : State} (h : Platform.inRegWindow s.platform a.toNat = true) :
    hostStore a b s = .next (s.recordFault .unsupportedRegisterAccess) := by simp [hostStore, h]

theorem hostLoad_regWindow {a : Word} {s : State} (h : Platform.inRegWindow s.platform a.toNat = true) :
    hostLoad a s = .next ((s.recordFault .unsupportedRegisterAccess).setReply none) := by simp [hostLoad, h]

theorem hostStore_plain {a : Word} {b : Byte} {s : State} (hr : Platform.inRegWindow s.platform a.toNat = false)
    (ho : isOrdinary s.platform a.toNat = true) (hw : s.inActiveWindow a.toNat = false) :
    hostStore a b s = .next (s.setMem (Memory.set s.mem a.toNat b)) := by simp [hostStore, hr, ho, hw]

theorem hostLoad_plain {a : Word} {s : State} (hr : Platform.inRegWindow s.platform a.toNat = false)
    (ho : isOrdinary s.platform a.toNat = true) (hd : s.inActiveDst a.toNat = false) :
    hostLoad a s = .next (s.setReply (some (.byte (Memory.get s.mem a.toNat)))) := by simp [hostLoad, hr, ho, hd]

theorem State.inActiveWindow_eq_false {s : State} {a : Nat} :
    s.inActiveWindow a = false ↔
      ∀ j, s.job = some j → inWindow j.src.toNat j.n.toNat a = false ∧ inWindow j.dst.toNat j.wlen a = false := by
  cases hj : s.job <;> simp [State.inActiveWindow, hj, Job.inSrc, Job.inDst]

theorem State.inActiveDst_eq_false {s : State} {a : Nat} (h : s.inActiveWindow a = false) : s.inActiveDst a = false := by
  cases hj : s.job <;> simp_all [State.inActiveWindow, State.inActiveDst]

/-- Settles O47: a store and a load of a byte that belongs to no window are a write and a read of memory. -/
theorem hostByteAccesses : Obligations.HostByteAccesses := by
  unfold Obligations.HostByteAccesses
  intro s a b hs hout
  have hactive : s.inActiveWindow a.toNat = false := State.inActiveWindow_eq_false.2 hout
  have hdst : s.inActiveDst a.toNat = false := State.inActiveDst_eq_false hactive
  refine ⟨fun hreg => ⟨hostStore_regWindow hreg, _, hostLoad_regWindow hreg, rfl⟩, fun hreg hord => ?_⟩
  refine ⟨hostLoad_plain hreg hord hdst, _, hostStore_plain hreg hord hactive, rfl, Memory.get_set hs.wf, ?_⟩
  rw [hostLoad_plain (s := s.setMem (Memory.set s.mem a.toNat b)) hreg hord hdst, State.setMem_mem, Memory.get_set hs.wf,
    if_pos rfl]
  rfl

end Sys2Proof.Machine
end

section
/-! SUPPORT. When the engine acts, which events change STATUS, and how a command comes to run. -/

namespace Sys2Proof.Machine

/-- Settles O33: without BUSY the invariant leaves no job for the engine. -/
theorem engineIsQuietWithoutAJob : Obligations.EngineIsQuietWithoutAJob := by
  unfold Obligations.EngineIsQuietWithoutAJob
  intro s hs hb
  exact engineTurn_idle (hs.no_job hb)

/-- The engine changes STATUS only by ending the job (10_state.md R28). -/
theorem engineTurn_status {s t : State} (h : engineTurn s = .next t) :
    t.status = s.status ∨ (s.job ≠ none ∧ t.job = none) := by
  rcases engineTurn_cases h with ⟨_, rfl⟩ | ⟨j, hj, ⟨_, rfl⟩ | ⟨_, _, rfl⟩⟩
  · exact .inl rfl
  · exact .inl rfl
  · exact .inr ⟨by simp [hj], s.finish_job j⟩

theorem regWrite_status {width : Nat} {off : BitVec 6} {v : Word} {s t : State} (h : regWrite width off v s = .next t) :
    t.status = s.status ∨ (width = 32 ∧ off = 0x00#6 ∧ s.busy = false) := by
  rcases regWrite_cases h with rfl | rfl | ⟨hwidth, hoff, hb, _⟩ | ⟨_, rfl | rfl | rfl⟩
  · exact .inl rfl
  · exact .inl rfl
  · exact .inr ⟨hwidth, hoff, hb⟩
  · exact .inl rfl
  · exact .inl rfl
  · exact .inl rfl

/-- What an event does to STATUS (10_state.md R28). -/
theorem handle_status {e : Event} {s t : State} (h : handle e s = .next t) :
    t.status = s.status ∨ (s.busy = false ∧ ∃ w, e = wr .cmd w) ∨ (e = .engine ∧ s.job ≠ none ∧ t.job = none) ∨
      e = .reset := by
  cases e with
  | regWrite width off v =>
    rcases regWrite_status h with hsame | ⟨rfl, rfl, hb⟩
    · exact .inl hsame
    · exact .inr (.inl ⟨hb, v, rfl⟩)
  | regRead width off => rcases regRead_cases h with rfl | rfl <;> exact .inl rfl
  | store a b => rcases hostStore_cases h with rfl | ⟨_, rfl⟩ | ⟨_, rfl⟩ <;> exact .inl rfl
  | load a => rcases hostLoad_cases h with rfl | rfl | rfl <;> exact .inl rfl
  | waitDone => cases h; exact .inl rfl
  | engine =>
    rcases engineTurn_status h with hsame | hended
    · exact .inl hsame
    · exact .inr (.inr (.inl ⟨rfl, hended⟩))
  | reset => exact .inr (.inr (.inr rfl))

/-- Settles O55: the engine's turn and the events, each by what it does to STATUS. -/
theorem onlyThreeEventsChangeStatus : Obligations.OnlyThreeEventsChangeStatus := by
  unfold Obligations.OnlyThreeEventsChangeStatus
  intro s t h hne
  rcases step_cases h with ⟨hnil, hengine⟩ | ⟨e, rest, hnext, hevent⟩
  · obtain ⟨hjob, hended⟩ := (engineTurn_status hengine).resolve_left hne
    exact .inr (.inl ⟨hjob, hended, .inl hnil⟩)
  · rcases (handle_status hevent).resolve_left hne with ⟨hb, w, rfl⟩ | ⟨rfl, hjob, hended⟩ | rfl
    · exact .inl ⟨hb, w, rest, hnext⟩
    · exact .inr (.inl ⟨hjob, hended, .inr ⟨rest, hnext⟩⟩)
    · exact .inr (.inr ⟨rest, hnext⟩)

/-- The table decoder reads a command of at most 32 bits, from its one word (30_encoding.md R56). -/
theorem decodeTableWord_eq_some {nbits w : Nat} {i : Instr} :
    decodeTableWord nbits w = some i ↔ nbits ≤ 32 ∧ cmdDecode (tableWord nbits w) = .command i := by
  unfold decodeTableWord tableWord
  split
  · cases cmdDecode (BitVec.ofNat 32 (w % 2 ^ nbits)) <;> simp_all
  · simp_all

theorem step_cmd {s : State} {w : Word} {i : Instr} {rest : List Event} (hnext : s.inputs = wr .cmd w :: rest)
    (hw : cmdDecode w = .command i) : step s = exec i (s.setInputs rest) := by
  rw [step_event hnext]
  exact cmdWrite_command hw

/-- Settles O51: `step` writes the word to CMD, and `withFetchWord` puts that write in front of the schedule. -/
theorem stepRunsTheDecodedCommand : Obligations.StepRunsTheDecodedCommand := by
  unfold Obligations.StepRunsTheDecodedCommand
  refine ⟨fun s w i rest => step_cmd, fun s nbits w i _ hw => ?_⟩
  obtain ⟨_, hcommand⟩ := decodeTableWord_eq_some.1 hw
  exact step_cmd (s := s.withFetchWord nbits w) rfl hcommand

end Sys2Proof.Machine
end

section
/-! SUPPORT. Which bytes of memory a step can change (20_memory.md R37, R38, R40). -/

namespace Sys2Proof.Machine

theorem State.inActiveDst_job {s : State} {j : Job} {a : Nat} (hj : s.job = some j) :
    s.inActiveDst a = inWindow j.dst.toNat j.wlen a := by simp [State.inActiveDst, hj, Job.inDst]

theorem State.inActiveDst_iff {s : State} {a : Nat} :
    s.inActiveDst a = true ↔ ∃ j, s.job = some j ∧ inWindow j.dst.toNat j.wlen a = true := by
  cases hj : s.job <;> simp [State.inActiveDst, hj, Job.inDst]

/-- A sequence written into a window leaves the bytes outside it. -/
theorem Memory.get_write_outside {a n x : Nat} {t : List Byte} {m : List Host.Cell} (h : Memory.wf m = true)
    (hlen : t.length ≤ n) (hfit : a + n ≤ 2 ^ 32) (hx : inWindow a n x = false) :
    Memory.get (Memory.write m a t) x = Memory.get m x := by
  rw [inWindow_eq_false] at hx
  rw [Memory.get_write h (by omega), if_neg (by omega)]

/-- A job that completes writes one sequence at its destination, no longer than the window (20_memory.md R40). -/
theorem State.Inv.finish_mem {s : State} {j : Job} (h : s.Inv) (hj : s.job = some j) :
    ∃ out, out.length ≤ j.wlen ∧ (s.finish j).mem = Memory.write s.mem j.dst.toNat out := by
  obtain ⟨_, _, _, hwlen⟩ := h.bounds hj
  rcases s.finish_cases j with ⟨hop, hf⟩ | ⟨hop, out, hdec, hf⟩ | ⟨_, _, hf⟩ <;> rw [hf]
  · refine ⟨_, ?_, rfl⟩
    rw [enc_length, Memory.read_length, hwlen, hop]
  · refine ⟨out, ?_, rfl⟩
    simpa [hwlen, hop] using dec_length_le hdec
  · exact ⟨_, (drawBytes_length _ _).le, rfl⟩

/-- The engine changes no byte outside the destination window of its job. -/
theorem engineTurn_get {s t : State} {a : Nat} (hs : s.Inv) (h : engineTurn s = .next t) (ha : s.inActiveDst a = false) :
    Memory.get t.mem a = Memory.get s.mem a := by
  rcases engineTurn_cases h with ⟨_, rfl⟩ | ⟨j, hj, ⟨_, rfl⟩ | ⟨_, _, rfl⟩⟩
  · rfl
  · rfl
  · obtain ⟨out, hlen, hmem⟩ := hs.finish_mem hj
    obtain ⟨_, hfit, _, _⟩ := hs.bounds hj
    rw [hmem, Memory.get_write_outside hs.wf hlen hfit (State.inActiveDst_job hj ▸ ha)]

/-- RESET changes no byte outside the destination window of the job it aborts (70_reset_and_hazards.md R110). -/
theorem resetEvent_get {s : State} {a : Nat} (hs : s.Inv) (ha : s.inActiveDst a = false) :
    Memory.get (resetEvent s).mem a = Memory.get s.mem a := by
  cases hj : s.job with
  | none => rw [resetEvent_mem_idle s hj]
  | some j =>
    obtain ⟨_, hfit, _, _⟩ := hs.bounds hj
    rw [resetEvent_mem_job s hj, Memory.get_write_outside hs.wf (drawBytes_length _ _).le hfit
      (State.inActiveDst_job hj ▸ ha)]

/-- A host store changes at most the byte it names (20_memory.md R37). -/
theorem hostStore_get {addr : Word} {b : Byte} {s t : State} {a : Nat} (hs : s.Inv) (h : hostStore addr b s = .next t)
    (ha : a ≠ addr.toNat) : Memory.get t.mem a = Memory.get s.mem a := by
  rcases hostStore_cases h with rfl | ⟨_, rfl⟩ | ⟨_, rfl⟩
  · rfl
  · rw [State.setMem_mem, Memory.get_set hs.wf, if_neg ha]
  · rw [State.setMem_mem, Memory.get_set hs.wf, if_neg ha]

/-- The byte of an address outside the active destination window survives every event but a host store to it. -/
theorem handle_get {e : Event} {s t : State} {a : Nat} (hs : s.Inv) (h : handle e s = .next t)
    (ha : s.inActiveDst a = false) (hstore : ∀ addr b, e = .store addr b → a ≠ addr.toNat) :
    Memory.get t.mem a = Memory.get s.mem a := by
  cases e with
  | regWrite width off v => rw [regWrite_mem h]
  | regRead width off => rcases regRead_cases h with rfl | rfl <;> rfl
  | store addr b => exact hostStore_get hs h (hstore addr b rfl)
  | load addr => rcases hostLoad_cases h with rfl | rfl | rfl <;> rfl
  | waitDone => cases h; rfl
  | engine => exact engineTurn_get hs h ha
  | reset => cases h; exact resetEvent_get hs ha

/-- Settles O53: outside the active destination window the engine changes no byte, and an event only the byte it stores. -/
theorem stepChangesOnlyTheWindowOrTheStoredByte : Obligations.StepChangesOnlyTheWindowOrTheStoredByte := by
  unfold Obligations.StepChangesOnlyTheWindowOrTheStoredByte
  intro s t hs h a hchanged
  cases ha : s.inActiveDst a with
  | true => exact .inl (State.inActiveDst_iff.1 ha)
  | false =>
    right
    by_contra hno
    apply hchanged
    rcases step_cases h with ⟨_, hengine⟩ | ⟨e, rest, hnext, hevent⟩
    · exact engineTurn_get hs hengine ha
    · refine handle_get (s := s.setInputs rest) (hs.setInputs rest) hevent ha fun addr b he hsame => ?_
      exact hno ⟨addr, b, rest, he ▸ hnext, hsame⟩

end Sys2Proof.Machine
end

section
/-! SUPPORT. The window rule in terms of addresses (20_memory.md R33). -/

namespace Sys2Proof.Machine

/-- Two windows do not overlap exactly when no address is in both; overlapping ones share the higher of their bases. -/
theorem overlap_eq_false_iff_no_shared_address {a la b lb : Nat} :
    overlap a la b lb = false ↔ ∀ x, ¬ (inWindow a la x = true ∧ inWindow b lb x = true) := by
  simp only [overlap_eq_false, inWindow_iff]
  constructor
  · omega
  · intro h
    have hmax := h (max a b)
    omega

/-- Settles O12: each of the three overlap tests of the rule is the absence of a shared address. -/
theorem windowRuleMeansNoSharedByte : Obligations.WindowRuleMeansNoSharedByte := by
  unfold Obligations.WindowRuleMeansNoSharedByte
  intro base i s n d
  have hlen : wlen i n ≤ 2 ^ 32 - 1 ↔ wlen i n < 2 ^ 32 := by omega
  simp only [windowOK_iff, overlap_eq_false_iff_no_shared_address, hlen, inWindow_iff (a := base), forall_and]

/-- An empty input has an empty destination window (20_memory.md R32). -/
@[simp] theorem wlen_zero (i : Instr) : wlen i 0 = 0 := by cases i <;> rfl

/-- Settles O13: empty windows overlap nothing, and the text of 3221225470 bytes or more has 2^32 characters or more. -/
theorem windowRuleAtTheEnds : Obligations.WindowRuleAtTheEnds := by
  unfold Obligations.WindowRuleAtTheEnds
  refine ⟨fun base i s d => ?_, fun base s n d hn => ?_⟩
  · simp [windowOK_iff, overlap_eq_false, s.isLt.le, d.isLt.le]
  · rw [Bool.eq_false_iff, ne_eq, windowOK_iff]
    rintro ⟨_, _, hlen, _⟩
    simp only [wlen] at hlen
    omega

end Sys2Proof.Machine
end

section
/-! SUPPORT. Where a step records EngineBusError, and where it has no meaning (20_memory.md R30, R39). -/

namespace Sys2Proof.Machine

/-- A property fails of a window exactly when it fails of one of its addresses. -/
theorem allFrom_eq_false {q : Nat → Bool} {a n : Nat} :
    allFrom q a n = false ↔ ∃ x, inWindow a n x = true ∧ q x = false := by
  simp [← Bool.not_eq_true, allFrom_iff, inWindow_iff, and_assoc]

/-- A job is not admitted exactly when one of its window bytes is not (20_memory.md R30). -/
theorem jobAdmitted_eq_false {p : Platform} {j : Job} :
    jobAdmitted p j = false ↔
      (∃ a, inWindow j.src.toNat j.n.toNat a = true ∧ memAdmits p a .read = false) ∨
        ∃ a, inWindow j.dst.toNat j.wlen a = true ∧ memAdmits p a .write = false := by
  rw [jobAdmitted, Bool.and_eq_false_iff, allFrom_eq_false, allFrom_eq_false]

/-- Settles O32: such a byte leaves the job not admitted, and then the engine only records the fault. -/
theorem busErrorIsRecorded : Obligations.BusErrorIsRecorded := by
  unfold Obligations.BusErrorIsRecorded
  intro s j hj hbyte
  rw [engineTurn_job hj, complete_bad (jobAdmitted_eq_false.2 hbyte)]
  rfl

/-- The engine stops only for a job over admitted memory with a window byte that is not ordinary (log entry 11). -/
theorem engineTurn_next_or_refused (s : State) :
    (∃ t, engineTurn s = .next t) ∨
      (engineTurn s = .refused .notOrdinaryMemory ∧
        ∃ j, s.job = some j ∧ jobAdmitted s.platform j = true ∧ jobOrdinary s.platform j = false) := by
  cases hj : s.job with
  | none => exact .inl ⟨s, engineTurn_idle hj⟩
  | some j =>
    rw [engineTurn_job hj]
    cases hadm : jobAdmitted s.platform j with
    | false => exact .inl ⟨_, complete_bad hadm⟩
    | true =>
      cases hord : jobOrdinary s.platform j with
      | false => exact .inr ⟨complete_device hadm hord, j, rfl, hadm, hord⟩
      | true => exact .inl ⟨_, complete_good hadm hord⟩

/-! ## The host's register accesses always answer a next state -/

theorem issue_next (i : Instr) (s : State) : ∃ t, issue i s = .next t := by
  cases hb : s.busy with
  | true => exact ⟨_, issue_busy hb⟩
  | false =>
    cases hw : s.windowOK i with
    | true => exact ⟨_, issue_accepts hb hw⟩
    | false => exact ⟨_, issue_refuses hb hw⟩

theorem cmdWrite_next (w : Word) (s : State) : ∃ t, cmdWrite w s = .next t := by
  cases hw : cmdDecode w with
  | command i => rw [cmdWrite_command hw, exec_eq_issue]; exact issue_next i s
  | illegal =>
    rw [cmdWrite_illegal hw, issueIllegal]
    split <;> exact ⟨_, rfl⟩

theorem regWrite_next (width : Nat) (off : BitVec 6) (v : Word) (s : State) : ∃ t, regWrite width off v s = .next t := by
  unfold regWrite
  split
  · exact ⟨_, rfl⟩
  · split
    · exact cmdWrite_next v s
    · split <;> exact ⟨_, rfl⟩

theorem regRead_next (width : Nat) (off : BitVec 6) (s : State) : ∃ t, regRead width off s = .next t := by
  unfold regRead
  split <;> exact ⟨_, rfl⟩

/-! ## A host byte access stops only at memory that is not ordinary -/

theorem hostStore_next_or_refused (a : Word) (b : Byte) (s : State) :
    (∃ t, hostStore a b s = .next t) ∨
      (hostStore a b s = .refused .notOrdinaryMemory ∧
        isOrdinary s.platform a.toNat = false ∧ Platform.inRegWindow s.platform a.toNat = false) := by
  cases hreg : Platform.inRegWindow s.platform a.toNat with
  | true => exact .inl ⟨_, hostStore_regWindow hreg⟩
  | false =>
    cases hord : isOrdinary s.platform a.toNat with
    | false => exact .inr ⟨by simp [hostStore, hreg, hord], rfl, rfl⟩
    | true => cases hactive : s.inActiveWindow a.toNat <;> simp [hostStore, hreg, hord, hactive]

theorem hostLoad_next_or_refused (a : Word) (s : State) :
    (∃ t, hostLoad a s = .next t) ∨
      (hostLoad a s = .refused .notOrdinaryMemory ∧
        isOrdinary s.platform a.toNat = false ∧ Platform.inRegWindow s.platform a.toNat = false) := by
  cases hreg : Platform.inRegWindow s.platform a.toNat with
  | true => exact .inl ⟨_, hostLoad_regWindow hreg⟩
  | false =>
    cases hord : isOrdinary s.platform a.toNat with
    | false => exact .inr ⟨by simp [hostLoad, hreg, hord], rfl, rfl⟩
    | true => cases hactive : s.inActiveDst a.toNat <;> simp [hostLoad, hreg, hord, hactive]

/-- The events that can stop: the engine's turn, and a host byte access. -/
theorem handle_next_or_refused (e : Event) (s : State) :
    (∃ t, handle e s = .next t) ∨
      (handle e s = .refused .notOrdinaryMemory ∧
        ((e = .engine ∧ ∃ j, s.job = some j ∧ jobAdmitted s.platform j = true ∧ jobOrdinary s.platform j = false) ∨
          ∃ a, (e = .load a ∨ ∃ b, e = .store a b) ∧
            isOrdinary s.platform a.toNat = false ∧ Platform.inRegWindow s.platform a.toNat = false)) := by
  cases e with
  | regWrite width off v => exact .inl (regWrite_next width off v s)
  | regRead width off => exact .inl (regRead_next width off s)
  | store a b =>
    exact (hostStore_next_or_refused a b s).imp_right fun ⟨hstop, hbyte⟩ => ⟨hstop, .inr ⟨a, .inr ⟨b, rfl⟩, hbyte⟩⟩
  | load a =>
    exact (hostLoad_next_or_refused a s).imp_right fun ⟨hstop, hbyte⟩ => ⟨hstop, .inr ⟨a, .inl rfl, hbyte⟩⟩
  | waitDone => exact .inl ⟨_, rfl⟩
  | engine => exact (engineTurn_next_or_refused s).imp_right fun ⟨hstop, hjob⟩ => ⟨hstop, .inl ⟨rfl, hjob⟩⟩
  | reset => exact .inl ⟨_, rfl⟩

/-- Settles O57: a step is the engine's turn or the handling of one event, and each says where it stops. -/
theorem stepStopsOnlyOnMemoryThatIsNotOrdinary : Obligations.StepStopsOnlyOnMemoryThatIsNotOrdinary := by
  unfold Obligations.StepStopsOnlyOnMemoryThatIsNotOrdinary
  intro s
  cases hnext : s.inputs with
  | nil =>
    rw [step_idle hnext]
    refine (engineTurn_next_or_refused s).imp_right fun ⟨hstop, j, hj, hadm, hord⟩ => ?_
    exact ⟨hstop, .inl ⟨j, hj, hadm, hord, .inl rfl⟩⟩
  | cons e rest =>
    rw [step_event hnext]
    refine (handle_next_or_refused e (s.setInputs rest)).imp_right fun ⟨hstop, hwhere⟩ => ⟨hstop, ?_⟩
    rcases hwhere with ⟨rfl, j, hj, hadm, hord⟩ | ⟨a, hevent, hbyte⟩
    · exact .inl ⟨j, hj, hadm, hord, .inr ⟨rest, rfl⟩⟩
    · refine .inr ⟨a, rest, ?_, hbyte⟩
      rcases hevent with rfl | ⟨b, rfl⟩
      · exact .inl rfl
      · exact .inr ⟨b, rfl⟩

end Sys2Proof.Machine
end

section
/-! SUPPORT. Command words: the decoder against the opcode map and the two fields of a word (30_encoding.md R48 to R50). -/

namespace Sys2Proof

/-! ## The decoder -/

/-- The mask of the decoder is the whole word (30_encoding.md R50). -/
@[simp] theorem and_fullMask (w : Word) : w &&& 0xFFFFFFFF#32 = w := BitVec.and_allOnes

/-- A word decodes to a command exactly when it is the word of that command (30_encoding.md R49). -/
theorem cmdDecode_eq_command {w : Word} {i : Instr} : cmdDecode w = .command i ↔ w = encode i := by
  unfold cmdDecode
  cases i <;> split_ifs <;> simp_all [encode]

theorem cmdDecode_eq_illegal {w : Word} : cmdDecode w = .illegal ↔ w ≠ 0x00000001#32 ∧ w ≠ 0x00000002#32 := by
  unfold cmdDecode
  split_ifs <;> simp_all

/-! ## The fields -/

/-- RSV of a word is 0 exactly when nothing is left above its low four bits (30_encoding.md R48). -/
theorem CmdFields.rsv_ofWord_eq_zero {w : Word} : (CmdFields.ofWord w).rsv = 0#28 ↔ w >>> 4 = 0#32 := by
  have hw := w.isLt
  simp only [CmdFields.ofWord, ← BitVec.toNat_inj, BitVec.extractLsb'_toNat, BitVec.toNat_ushiftRight,
    Nat.shiftRight_eq_div_pow, BitVec.toNat_ofNat]
  omega

/-- The one word with RSV 0 and a given OP is that OP with zeros above it (30_encoding.md R48). -/
theorem word_eq_op_iff {w : Word} {op : BitVec 4} :
    w = op.setWidth 32 ↔ w >>> 4 = 0#32 ∧ (CmdFields.ofWord w).op = op := by
  have hw := w.isLt
  have hop := op.isLt
  simp only [CmdFields.ofWord, ← BitVec.toNat_inj, BitVec.extractLsb'_toNat, BitVec.toNat_ushiftRight,
    Nat.shiftRight_eq_div_pow, BitVec.toNat_ofNat, BitVec.toNat_setWidth]
  omega

theorem CmdFields.wf_ofWord {w : Word} :
    (CmdFields.ofWord w).wf = true ↔
      w >>> 4 = 0#32 ∧ ((CmdFields.ofWord w).op = 0x1#4 ∨ (CmdFields.ofWord w).op = 0x2#4) := by
  simp only [CmdFields.wf, CmdFields.rsvOk, CmdFields.opOk, Bool.and_eq_true, Bool.or_eq_true, beq_iff_eq,
    CmdFields.rsv_ofWord_eq_zero]

theorem cmdDecode_eq_encode_iff_fields {w : Word} :
    cmdDecode w = .command .encode ↔ w >>> 4 = 0#32 ∧ (CmdFields.ofWord w).op = 0x1#4 :=
  cmdDecode_eq_command.trans (word_eq_op_iff (op := 0x1#4))

theorem cmdDecode_eq_decode_iff_fields {w : Word} :
    cmdDecode w = .command .decode ↔ w >>> 4 = 0#32 ∧ (CmdFields.ofWord w).op = 0x2#4 :=
  cmdDecode_eq_command.trans (word_eq_op_iff (op := 0x2#4))

theorem Instr.exists_iff {p : Instr → Prop} : (∃ i, p i) ↔ p .encode ∨ p .decode := by
  constructor
  · rintro ⟨i, h⟩
    cases i with
    | encode => exact .inl h
    | decode => exact .inr h
  · exact fun h => h.elim (⟨_, ·⟩) (⟨_, ·⟩)

/-! ## The statements about command words -/

/-- Settles O3: with RSV 0 the word is its OP, and the two words of the opcode map are the OPs 0x1 and 0x2. -/
theorem fieldsDecideTheCommand : Obligations.FieldsDecideTheCommand := by
  unfold Obligations.FieldsDecideTheCommand
  intro w
  refine ⟨?_, cmdDecode_eq_encode_iff_fields, cmdDecode_eq_decode_iff_fields⟩
  rw [CmdFields.wf_ofWord, and_or_left, Instr.exists_iff, cmdDecode_eq_encode_iff_fields, cmdDecode_eq_decode_iff_fields]

/-- Settles O1: the words of the two commands are 0x00000001 and 0x00000002. -/
theorem commandDecoderIsTotal : Obligations.CommandDecoderIsTotal := by
  unfold Obligations.CommandDecoderIsTotal
  exact fun w => ⟨cmdDecode_eq_command, cmdDecode_eq_command, cmdDecode_eq_illegal⟩

/-- Settles O2: both ways are the one equivalence of decoding to a command and being its word. -/
theorem encodeAndDecodeAgree : Obligations.EncodeAndDecodeAgree := by
  unfold Obligations.EncodeAndDecodeAgree
  exact ⟨fun i _ => cmdDecode_eq_command.2 rfl, fun w i h => (cmdDecode_eq_command.1 h).symm⟩

/-- Settles O4: each of the nine words is evaluated. -/
theorem wordsOfTheOpcodeMap : Obligations.WordsOfTheOpcodeMap := by
  unfold Obligations.WordsOfTheOpcodeMap
  decide

end Sys2Proof
end

section
/-! SUPPORT. The issue procedure of a host write to CMD (30_encoding.md R52). -/

namespace Sys2Proof.Machine

/-! ## Outcomes of a CMD write while BUSY = 0 -/

theorem issueIllegal_idle {s : State} (hb : s.busy = false) : issueIllegal s = .next (s.report .illegalCommand 0) := by
  simp [issueIllegal, hb]

theorem cmdWrite_illegal_idle {w : Word} {s : State} (hb : s.busy = false) (hw : cmdDecode w = .illegal) :
    cmdWrite w s = .next (s.report .illegalCommand 0) := by
  rw [cmdWrite_illegal hw, issueIllegal_idle hb]

theorem cmdWrite_refuses {w : Word} {i : Instr} {s : State} (hb : s.busy = false) (hw : cmdDecode w = .command i)
    (hwin : s.windowOK i = false) : cmdWrite w s = .next (s.report .windowError 0) := by
  rw [cmdWrite_command hw, exec_eq_issue, issue_refuses hb hwin]

theorem cmdWrite_accepts {w : Word} {i : Instr} {s : State} (hb : s.busy = false) (hw : cmdDecode w = .command i)
    (hwin : s.windowOK i = true) : cmdWrite w s = .next (s.accept i) := by
  rw [cmdWrite_command hw, exec_eq_issue, issue_accepts hb hwin]

/-! ## The statements about the issue procedure -/

/-- Settles O5: a host write at the offset of CMD is `cmdWrite`, taken by BUSY, the decoder and the window rule. -/
theorem issueProcedure : Obligations.IssueProcedure := by
  unfold Obligations.IssueProcedure
  intro s w
  exact ⟨cmdWrite_busy, cmdWrite_illegal_idle, fun i => cmdWrite_refuses, fun i => cmdWrite_accepts⟩

/-- Settles O9: a word other than the two of the opcode map decodes as illegal. -/
theorem illegalWordEndsAtOnce : Obligations.IllegalWordEndsAtOnce := by
  unfold Obligations.IllegalWordEndsAtOnce
  intro w s hencode hdecode hb
  exact cmdWrite_illegal_idle hb (cmdDecode_eq_illegal.2 ⟨hencode, hdecode⟩)

/-- Settles O10: the next state is the old one, an accepted one or a report, and neither of these touches another field. -/
theorem commandFrame : Obligations.CommandFrame := by
  unfold Obligations.CommandFrame
  intro i s t h
  rw [exec_eq_issue] at h
  rcases issue_cases h with ⟨_, rfl⟩ | ⟨_, _, rfl⟩ | ⟨_, _, rfl⟩
  · simp
  · simp
  · simp

/-- Settles O11: both commands are the issue procedure, which answers a next state on each of its paths. -/
theorem commandsNeverStop : Obligations.CommandsNeverStop := by
  unfold Obligations.CommandsNeverStop
  intro i s
  rw [exec_eq_issue]
  exact issue_next i s

end Sys2Proof.Machine
end

section
/-! SUPPORT. The groups of the codec: sextets as slices of 24 bits, and the legal pad patterns (30_encoding.md R53, R54). -/

namespace Sys2Proof.Machine

/-! ## The sextets of a byte group (20_memory.md R35) -/

section Slices
variable (b0 b1 b2 : Byte)

/-- Bit `k` of a group: the first byte is the most significant one (20_memory.md R35). -/
theorem getLsbD_group (k : Nat) :
    (b0 ++ b1 ++ b2).getLsbD k =
      if k < 8 then b2.getLsbD k else if k < 16 then b1.getLsbD (k - 8) else b0.getLsbD (k - 16) := by
  have hsecond : k - 8 < 8 ↔ k < 16 := by omega
  rw [BitVec.getLsbD_append, BitVec.getLsbD_append]
  simp only [hsecond, Nat.sub_sub]

/-- A sextet is a slice of the group when its six bits are the group's from bit `k` on. -/
theorem eq_slice_of_bits {v : Sextet} {k : Nat}
    (h : ∀ i, i < 6 → v.getLsbD i = if k + i < 8 then b2.getLsbD (k + i) else
      if k + i < 16 then b1.getLsbD (k + i - 8) else b0.getLsbD (k + i - 16)) :
    v = (b0 ++ b1 ++ b2).extractLsb' k 6 := by
  refine BitVec.eq_of_getLsbD_eq fun i hi => ?_
  rw [BitVec.getLsbD_extractLsb', getLsbD_group, h i hi, decide_eq_true hi, Bool.true_and]

theorem encV0_eq_slice : encV0 b0 = (b0 ++ b1 ++ b2).extractLsb' 18 6 := by
  refine eq_slice_of_bits b0 b1 b2 fun i hi => ?_
  interval_cases i <;> simp [encV0]

theorem encV1_eq_slice : encV1 b0 b1 = (b0 ++ b1 ++ b2).extractLsb' 12 6 := by
  refine eq_slice_of_bits b0 b1 b2 fun i hi => ?_
  interval_cases i <;> simp [encV1]

theorem encV2_eq_slice : encV2 b1 b2 = (b0 ++ b1 ++ b2).extractLsb' 6 6 := by
  refine eq_slice_of_bits b0 b1 b2 fun i hi => ?_
  interval_cases i <;> simp [encV2]

theorem encV3_eq_slice : encV3 b2 = (b0 ++ b1 ++ b2).extractLsb' 0 6 := by
  refine eq_slice_of_bits b0 b1 b2 fun i hi => ?_
  interval_cases i <;> simp [encV3]

end Slices

/-- A 2-byte final group is the full group with the third byte 0, cut to its sextets (41_encode.md R69). -/
theorem encGroup2_eq_take (b0 b1 : Byte) : encGroup2 b0 b1 = (encGroup3 b0 b1 0#8).take 3 := by
  simp [encGroup2, encGroup3, encV2]

/-- A 1-byte final group is the full group with the second and third byte 0, cut to its sextets (41_encode.md R70). -/
theorem encGroup1_eq_take (b0 : Byte) : encGroup1 b0 = (encGroup3 b0 0#8 0#8).take 2 := by
  simp [encGroup1, encGroup3, encV1]

/-- Settles O18: sextet by sextet, and each short group by its missing bytes. -/
theorem sextetsAreSlicesOfTheGroup : Obligations.SextetsAreSlicesOfTheGroup := by
  unfold Obligations.SextetsAreSlicesOfTheGroup
  intro b0 b1 b2
  refine ⟨?_, encGroup2_eq_take b0 b1, encGroup1_eq_take b0⟩
  rw [encGroup3, encV0_eq_slice b0 b1 b2, encV1_eq_slice b0 b1 b2, encV2_eq_slice b0 b1 b2, encV3_eq_slice b0 b1 b2]

/-! ## Pad patterns (42_decode.md R82) -/

theorem RevEntry.isValue_iff {e : RevEntry} : e.isValue = true ↔ ∃ v, e = .value v := by
  cases e <;> simp [RevEntry.isValue]

/-- Settles O23: entry by entry, both sides are the same disjunction of the three patterns, factored on the right by the two
values they begin with. -/
theorem legalPadPatterns : Obligations.LegalPadPatterns := by
  unfold Obligations.LegalPadPatterns
  intro final e1 e2 e3 e4
  simp only [padOK, Bool.or_eq_true, Bool.and_eq_true, RevEntry.isValue_iff, beq_iff_eq, exists_and_left, exists_and_right]
  grind

end Sys2Proof.Machine
end

section
/-! SUPPORT. The Alphabet Table: FWD and its lookup, and what REV answers for every byte (40_alphabet.md R61 to R66). -/

namespace Sys2Proof.Machine

/-! ## The forward table (40_alphabet.md R61 to R63) -/

/-- FWD by its ASCII ranges: the upper case letters, the lower case letters, the digits, `+` and `/`. -/
theorem fwdTable_eq_asciiRanges :
    fwdTable = (List.range' 0x41 26 ++ List.range' 0x61 26 ++ List.range' 0x30 10 ++ [0x2B, 0x2F]).map (BitVec.ofNat 8) := rfl

theorem length_fwdTable : fwdTable.length = 64 := rfl

theorem nodup_fwdTable : fwdTable.Nodup := by decide

theorem padByte_notMem_fwdTable : padByte ∉ fwdTable := by decide

theorem toNat_lt_length_fwdTable (i : Sextet) : i.toNat < fwdTable.length := i.isLt

theorem valueOf_eq_getElem (i : Sextet) : valueOf i = fwdTable[i.toNat]'(toNat_lt_length_fwdTable i) :=
  List.getD_eq_getElem _ _ _

theorem valueOf_mem_fwdTable (i : Sextet) : valueOf i ∈ fwdTable :=
  valueOf_eq_getElem i ▸ List.getElem_mem _

@[simp] theorem valueOf_ne_padByte (i : Sextet) : valueOf i ≠ padByte := fun h =>
  padByte_notMem_fwdTable (h ▸ valueOf_mem_fwdTable i)

@[simp] theorem valueOf_inj {i j : Sextet} : valueOf i = valueOf j ↔ i = j := by
  rw [valueOf_eq_getElem, valueOf_eq_getElem, nodup_fwdTable.getElem_inj_iff, BitVec.toNat_inj]

/-! ## The search of the forward table -/

theorem fwdIndex_eq_none {k : Nat} {table : List Byte} {c : Byte} : fwdIndex k table c = none ↔ c ∉ table := by
  induction table generalizing k with
  | nil => simp [fwdIndex]
  | cons x rest ih => by_cases hx : c = x <;> simp [fwdIndex, hx, ih]

theorem exists_getElem?_of_fwdIndex {k : Nat} {table : List Byte} {c : Byte} {i : Sextet}
    (h : fwdIndex k table c = some i) : ∃ n, table[n]? = some c ∧ i = BitVec.ofNat 6 (k + n) := by
  induction table generalizing k with
  | nil => simp [fwdIndex] at h
  | cons x rest ih =>
    by_cases hx : c = x
    · exact ⟨0, by simp [hx], by simpa [fwdIndex, hx] using h.symm⟩
    · obtain ⟨n, hn, hi⟩ := ih (k := k + 1) (by simpa [fwdIndex, hx] using h)
      exact ⟨n + 1, by simpa using hn, by rw [hi, Nat.add_right_comm, Nat.add_assoc]⟩

theorem valueOf_of_fwdIndex {c : Byte} {i : Sextet} (h : fwdIndex 0 fwdTable c = some i) : valueOf i = c := by
  obtain ⟨n, hn, rfl⟩ := exists_getElem?_of_fwdIndex h
  have hlt : n < 2 ^ 6 := (List.getElem?_eq_some_iff.1 hn).1
  rw [valueOf, Nat.zero_add, BitVec.toNat_ofNat, Nat.mod_eq_of_lt hlt, List.getD_eq_getElem?_getD, hn, Option.getD_some]

/-- A character of the table is found, and at the index it was taken from, since no entry stands twice (R62). -/
@[simp] theorem fwdIndex_valueOf (i : Sextet) : fwdIndex 0 fwdTable (valueOf i) = some i := by
  cases h : fwdIndex 0 fwdTable (valueOf i) with
  | none => exact absurd (valueOf_mem_fwdTable i) (fwdIndex_eq_none.1 h)
  | some j => rw [valueOf_inj.1 (valueOf_of_fwdIndex h)]

/-! ## The reverse table (40_alphabet.md R64, R65) -/

@[simp] theorem indexOf_valueOf (i : Sextet) : indexOf (valueOf i) = .value i := by
  simp [indexOf]

@[simp] theorem indexOf_padByte : indexOf padByte = .pad := by
  simp [indexOf, fwdIndex_eq_none.2 padByte_notMem_fwdTable]

/-- A byte is a character of the table, the pad, or neither, and REV tells which. -/
theorem indexOf_cases (c : Byte) :
    (∃ i, c = valueOf i ∧ indexOf c = .value i) ∨ (c = padByte ∧ indexOf c = .pad) ∨
      ((∀ i, c ≠ valueOf i) ∧ c ≠ padByte ∧ indexOf c = .invalid) := by
  cases h : fwdIndex 0 fwdTable c with
  | some i => exact .inl ⟨i, (valueOf_of_fwdIndex h).symm, by simp [indexOf, h]⟩
  | none =>
    by_cases hpad : c = padByte
    · exact .inr (.inl ⟨hpad, hpad ▸ indexOf_padByte⟩)
    · refine .inr (.inr ⟨?_, hpad, by simp [indexOf, h, hpad]⟩)
      rintro i rfl
      simp at h

theorem indexOf_eq_value {c : Byte} {i : Sextet} : indexOf c = .value i ↔ c = valueOf i := by
  rcases indexOf_cases c with ⟨j, rfl, _⟩ | ⟨rfl, _⟩ | ⟨hval, _, hc⟩
  · simp
  · simp [(valueOf_ne_padByte i).symm]
  · simp [hc, hval]

theorem indexOf_eq_pad {c : Byte} : indexOf c = .pad ↔ c = padByte := by
  rcases indexOf_cases c with ⟨j, rfl, _⟩ | ⟨rfl, _⟩ | ⟨_, hpad, hc⟩
  · simp
  · simp
  · simp [hc, hpad]

theorem indexOf_eq_invalid {c : Byte} : indexOf c = .invalid ↔ (∀ i, c ≠ valueOf i) ∧ c ≠ padByte := by
  rcases indexOf_cases c with ⟨j, rfl, _⟩ | ⟨rfl, _⟩ | ⟨hval, hpad, hc⟩
  · simp
  · simp
  · simp [hc, hval, hpad]

/-! ## The statements about the Alphabet Table -/

/-- Settles O14: the forward direction is REV at a character of the table, the converse its answer `Value`. -/
theorem lookupLaw : Obligations.LookupLaw := by
  unfold Obligations.LookupLaw
  exact ⟨indexOf_valueOf, fun c i h => (indexOf_eq_value.1 h).symm⟩

/-- Settles O15: the entries of FWD stand once each and the pad is not among them. -/
theorem forwardTableIsInjective : Obligations.ForwardTableIsInjective := by
  unfold Obligations.ForwardTableIsInjective
  exact ⟨fun i j => valueOf_inj.1, valueOf_ne_padByte, length_fwdTable⟩

/-- Settles O16: the bounds of the closed form are the ends of FWD's ASCII ranges, so in each case the index falls in one
range. -/
theorem forwardTableInClosedForm : Obligations.ForwardTableInClosedForm := by
  unfold Obligations.ForwardTableInClosedForm
  intro i
  have hi : i.toNat < 64 := i.isLt
  rw [valueOf, fwdTable_eq_asciiRanges]
  split_ifs <;> grind

/-- Settles O17: REV's three answers, one equivalence each. -/
theorem reverseTableClassifies : Obligations.ReverseTableClassifies := by
  unfold Obligations.ReverseTableClassifies
  intro c
  exact ⟨fun i => indexOf_eq_value, indexOf_eq_pad, indexOf_eq_invalid⟩

end Sys2Proof.Machine
end

section
/-! SUPPORT. The encoder and its text: the datapath in arithmetic, the groups, the pads (41_encode.md R68 to R74). -/

namespace Sys2Proof.Machine

/-! ## The fields of the datapath in arithmetic (41_encode.md R71, 42_decode.md R87) -/

/-- A field that still fits its byte after a shift by `k`, joined with a field below bit `k`: the join is their sum. -/
theorem toNat_shiftLeft_or {x y : Byte} {k : Nat} (hx : x.toNat * 2 ^ k < 256) (hy : y.toNat < 2 ^ k) :
    (x <<< k ||| y).toNat = x.toNat * 2 ^ k + y.toNat := by
  have hkept : (x <<< k).toNat = x.toNat <<< k := by
    rw [BitVec.toNat_shiftLeft, Nat.shiftLeft_eq, Nat.mod_eq_of_lt hx]
  rw [BitVec.toNat_or, hkept, ← Nat.shiftLeft_add_eq_or_of_lt hy, Nat.shiftLeft_eq]

/-- A mask of `k` low bits leaves the remainder by `2 ^ k`. -/
theorem toNat_and_lowMask {x m : Byte} {k : Nat} (hm : m.toNat = 2 ^ k - 1) : (x &&& m).toNat = x.toNat % 2 ^ k := by
  rw [BitVec.toNat_and, hm, Nat.and_two_pow_sub_one_eq_mod]

theorem toNat_encV0 (b0 : Byte) : (encV0 b0).toNat = b0.toNat / 4 := by
  have h0 := b0.isLt
  rw [encV0, BitVec.toNat_setWidth, BitVec.toNat_ushiftRight, Nat.shiftRight_eq_div_pow]
  omega

theorem toNat_encV1 (b0 b1 : Byte) : (encV1 b0 b1).toNat = b0.toNat % 4 * 16 + b1.toNat / 16 := by
  have h1 := b1.isLt
  have hhigh : (b0 &&& 0x03#8).toNat = b0.toNat % 4 := toNat_and_lowMask (k := 2) rfl
  have hlow : (b1 >>> 4).toNat = b1.toNat / 2 ^ 4 := by rw [BitVec.toNat_ushiftRight, Nat.shiftRight_eq_div_pow]
  rw [encV1, BitVec.toNat_setWidth, toNat_shiftLeft_or (by omega) (by omega)]
  omega

theorem toNat_encV2 (b1 b2 : Byte) : (encV2 b1 b2).toNat = b1.toNat % 16 * 4 + b2.toNat / 64 := by
  have h2 := b2.isLt
  have hhigh : (b1 &&& 0x0F#8).toNat = b1.toNat % 16 := toNat_and_lowMask (k := 4) rfl
  have hlow : (b2 >>> 6).toNat = b2.toNat / 2 ^ 6 := by rw [BitVec.toNat_ushiftRight, Nat.shiftRight_eq_div_pow]
  rw [encV2, BitVec.toNat_setWidth, toNat_shiftLeft_or (by omega) (by omega)]
  omega

theorem toNat_encV3 (b2 : Byte) : (encV3 b2).toNat = b2.toNat % 64 := by
  rw [encV3, BitVec.toNat_setWidth, toNat_and_lowMask (k := 6) rfl]
  exact Nat.mod_mod _ _

theorem toNat_decB0 (v0 v1 : Sextet) : (decB0 v0 v1).toNat = v0.toNat * 4 + v1.toNat / 16 := by
  have h0 := v0.isLt
  have h1 := v1.isLt
  have hhigh : (v0.setWidth 8).toNat = v0.toNat := BitVec.toNat_setWidth_of_le (by decide)
  have hlow : (v1.setWidth 8 >>> 4).toNat = v1.toNat / 2 ^ 4 := by
    rw [BitVec.toNat_ushiftRight, Nat.shiftRight_eq_div_pow, BitVec.toNat_setWidth_of_le (by decide)]
  rw [decB0, toNat_shiftLeft_or (by omega) (by omega)]
  omega

theorem toNat_decB1 (v1 v2 : Sextet) : (decB1 v1 v2).toNat = v1.toNat % 16 * 16 + v2.toNat / 4 := by
  have h2 := v2.isLt
  have hhigh : (v1.setWidth 8 &&& 0x0F#8).toNat = v1.toNat % 2 ^ 4 := by
    rw [toNat_and_lowMask (k := 4) rfl, BitVec.toNat_setWidth_of_le (by decide)]
  have hlow : (v2.setWidth 8 >>> 2).toNat = v2.toNat / 2 ^ 2 := by
    rw [BitVec.toNat_ushiftRight, Nat.shiftRight_eq_div_pow, BitVec.toNat_setWidth_of_le (by decide)]
  rw [decB1, toNat_shiftLeft_or (by omega) (by omega)]
  omega

theorem toNat_decB2 (v2 v3 : Sextet) : (decB2 v2 v3).toNat = v2.toNat % 4 * 64 + v3.toNat := by
  have h3 := v3.isLt
  have hhigh : (v2.setWidth 8 &&& 0x03#8).toNat = v2.toNat % 2 ^ 2 := by
    rw [toNat_and_lowMask (k := 2) rfl, BitVec.toNat_setWidth_of_le (by decide)]
  have hlow : (v3.setWidth 8).toNat = v3.toNat := BitVec.toNat_setWidth_of_le (by decide)
  rw [decB2, toNat_shiftLeft_or (by omega) (by omega)]
  omega

/-- Settles O19: every join of the datapath is of a shifted field that fits and a field below it. -/
theorem datapathLosesNoBit : Obligations.DatapathLosesNoBit := by
  unfold Obligations.DatapathLosesNoBit
  exact ⟨fun b0 b1 b2 => ⟨toNat_encV0 b0, toNat_encV1 b0 b1, toNat_encV2 b1 b2, toNat_encV3 b2⟩,
    fun v0 v1 v2 v3 => ⟨toNat_decB0 v0 v1, toNat_decB1 v1 v2, toNat_decB2 v2 v3⟩⟩

/-! ## The groups of the text (41_encode.md R72) -/

/-- Dropping `k` groups of the text is encoding without the first `k` groups of the input. -/
theorem drop_enc {b : List Byte} {k : Nat} (hk : k ≤ b.length / 3) : (enc b).drop (4 * k) = enc (b.drop (3 * k)) := by
  induction k generalizing b with
  | zero => rfl
  | succ k ih =>
    have hfull : 3 ≤ b.length := by omega
    match b, hfull with
    | b0 :: b1 :: b2 :: rest, _ =>
      simp only [List.length_cons] at hk
      simpa [enc, encGroup3, Nat.mul_succ] using ih (b := rest) (by omega)

/-- The first four characters of a text are the first group of its input. -/
theorem take_enc {b : List Byte} (h : 3 ≤ b.length) :
    (enc b).take 4 = (encGroup3 (b.getD 0 0) (b.getD 1 0) (b.getD 2 0)).map valueOf := by
  match b, h with
  | b0 :: b1 :: b2 :: rest, _ => simp [enc, encGroup3]

theorem enc_of_length_eq_one {b : List Byte} (h : b.length = 1) :
    enc b = (encGroup1 (b.getD 0 0)).map valueOf ++ [padByte, padByte] := by
  obtain ⟨b0, rfl⟩ := List.length_eq_one_iff.1 h
  rfl

theorem enc_of_length_eq_two {b : List Byte} (h : b.length = 2) :
    enc b = (encGroup2 (b.getD 0 0) (b.getD 1 0)).map valueOf ++ [padByte] := by
  obtain ⟨b0, b1, rfl⟩ := List.length_eq_two.1 h
  rfl

theorem getD_drop (b : List Byte) (m i : Nat) : (b.drop m).getD i 0 = b.getD (m + i) 0 := by
  simp [List.getD_eq_getElem?_getD]

/-- Settles O20: what stands in the text from group `k` on is the text of the input from group `k` on. -/
theorem encWorksGroupByGroup : Obligations.EncWorksGroupByGroup := by
  unfold Obligations.EncWorksGroupByGroup
  refine ⟨rfl, fun b => ?_⟩
  have hrest := drop_enc (le_refl (b.length / 3))
  have hlength : (b.drop (3 * (b.length / 3))).length = b.length % 3 := by
    rw [List.length_drop]
    omega
  refine ⟨fun k hk => ?_, fun h => ?_, fun h => ?_, fun h => ?_⟩
  · have hgroup : 3 ≤ (b.drop (3 * k)).length := by
      rw [List.length_drop]
      omega
    rw [drop_enc hk.le, take_enc hgroup, getD_drop, getD_drop, getD_drop]
    rfl
  · rw [hrest, List.eq_nil_of_length_eq_zero (hlength.trans h)]
    rfl
  · rw [hrest, enc_of_length_eq_two (hlength.trans h), getD_drop, getD_drop]
    rfl
  · rw [hrest, enc_of_length_eq_one (hlength.trans h), getD_drop]
    rfl

/-! ## The characters and the pads of the text (41_encode.md R73, R74) -/

/-- A text is characters of the alphabet, then a pad for each byte that the final group lacks. -/
theorem exists_enc_eq_append_replicate (b : List Byte) :
    ∃ body : List Sextet, enc b = body.map valueOf ++ List.replicate ((3 - b.length % 3) % 3) padByte := by
  induction b using enc.induct with
  | case1 => exact ⟨[], rfl⟩
  | case2 b0 => exact ⟨encGroup1 b0, rfl⟩
  | case3 b0 b1 => exact ⟨encGroup2 b0 b1, rfl⟩
  | case4 b0 b1 b2 rest ih =>
    obtain ⟨body, hrest⟩ := ih
    have hlast : (b0 :: b1 :: b2 :: rest).length % 3 = rest.length % 3 := Nat.add_mod_right rest.length 3
    refine ⟨encGroup3 b0 b1 b2 ++ body, ?_⟩
    rw [enc, hrest, hlast, List.map_append, List.append_assoc]

/-- Settles O21: the text fills the window of R32, and it is characters of the alphabet and then pads. -/
theorem encLengthAndAlphabet : Obligations.EncLengthAndAlphabet := by
  unfold Obligations.EncLengthAndAlphabet
  refine fun b => ⟨enc_length b, fun c hc => ?_⟩
  obtain ⟨body, hb⟩ := exists_enc_eq_append_replicate b
  rw [hb, List.mem_append] at hc
  rcases hc with hbody | hpads
  · obtain ⟨i, _, rfl⟩ := List.mem_map.1 hbody
    exact .inr ⟨i, rfl⟩
  · exact .inl (List.eq_of_mem_replicate hpads)

/-- Settles O22: no character of the alphabet is the pad, so the characters before the pads hold none. -/
theorem encPadsAreTrailing : Obligations.EncPadsAreTrailing := by
  unfold Obligations.EncPadsAreTrailing
  intro b
  obtain ⟨body, hb⟩ := exists_enc_eq_append_replicate b
  refine ⟨body.map valueOf, hb, fun hpad => ?_⟩
  obtain ⟨i, _, hi⟩ := List.mem_map.1 hpad
  exact valueOf_ne_padByte i hi

end Sys2Proof.Machine
end

section
/-! SUPPORT. The ENCODE command from its CMD write to its completion, and the result of a job as a function of its source
bytes (41_encode.md R75, R77, R78). -/

namespace Sys2Proof.Machine

/-- An acceptable command starts its job, whichever it is (30_encoding.md R52). -/
theorem exec_accepts {i : Instr} {s : State} (hb : s.busy = false) (hwin : s.windowOK i = true) :
    exec i s = .next (s.accept i) :=
  (exec_eq_issue i s).trans (issue_accepts hb hwin)

/-- Settles O6: the accepted state of ENCODE, its window length written out. -/
theorem encodeIsAccepted : Obligations.EncodeIsAccepted := by
  unfold Obligations.EncodeIsAccepted
  intro s hb hwin
  exact exec_accepts hb hwin

/-! ## Completion of a job -/

/-- A result that fits stands at the destination with its length in OUT_LEN (20_memory.md R40). -/
theorem State.finishOk_result {s : State} {j : Job} {out : List Byte} (hm : Memory.wf s.mem = true)
    (hfit : j.dst.toNat + out.length ≤ 2 ^ 32) (hlen : out.length < 2 ^ 32) :
    (s.finishOk j out).outLen.toNat = out.length ∧
      Memory.read (s.finishOk j out).mem j.dst.toNat out.length = out := by
  rw [State.finishOk_outLen, State.finishOk_mem, BitVec.toNat_ofNat]
  exact ⟨Nat.mod_eq_of_lt hlen, Memory.read_write hm hfit⟩

/-- The text of an ENCODE job has the length of its destination window (41_encode.md R73). -/
theorem State.Inv.length_enc {s : State} {j : Job} (h : s.Inv) (hj : s.job = some j) (hop : j.op = .encode) :
    (enc (Memory.read s.mem j.src.toNat j.n.toNat)).length = j.wlen := by
  obtain ⟨_, _, _, hwlen⟩ := h.bounds hj
  rw [enc_length, Memory.read_length, hwlen, hop]

theorem State.finish_encode {s : State} {j : Job} (hop : j.op = .encode) :
    s.finish j = s.finishOk j (enc (Memory.read s.mem j.src.toNat j.n.toNat)) := by
  simp [State.finish, hop]

/-- Settles O29: the text fills the destination window, so it is read back there and nothing outside it is written. -/
theorem encodeCompletion : Obligations.EncodeCompletion := by
  unfold Obligations.EncodeCompletion
  intro s j hs hj hop
  rw [engineTurn_job hj]
  refine ⟨fun hadm hord => ⟨s.finish j, complete_good hadm hord, ?_⟩, fun hadm => ⟨_, complete_bad hadm, rfl⟩⟩
  obtain ⟨_, hfit, hmax, _⟩ := hs.bounds hj
  have hlen := hs.length_enc hj hop
  rw [State.finish_encode hop]
  obtain ⟨houtLen, hread⟩ := State.finishOk_result hs.wf (hlen ▸ hfit) (by omega)
  rw [hlen] at hread
  exact ⟨hread, fun a => Memory.get_write_outside hs.wf hlen.le hfit, houtLen,
    rfl, rfl, rfl, rfl, rfl, rfl, rfl, rfl, rfl, rfl⟩

/-- Settles O34: the accepted state meets the invariant with the ENCODE job in flight, and its completion is that of R78. -/
theorem encodeCommandDeliversTheText : Obligations.EncodeCommandDeliversTheText := by
  unfold Obligations.EncodeCommandDeliversTheText
  intro s hs hb hwin hwindows
  obtain ⟨hadm, hord⟩ := Bool.and_eq_true_iff.1 hwindows
  have haccepted : (s.accept .encode).Inv := State.accept_inv hs.wf hwin
  obtain ⟨u, hturn, hread, hframe, houtLen, hstatus, hjob, hsrc, hn, hdst, hfaults, _⟩ :=
    (encodeCompletion _ _ haccepted (s.accept_job .encode) rfl).1 hadm hord
  have hlen : u.outLen.toNat = (s.latch .encode).wlen :=
    houtLen.trans (haccepted.length_enc (s.accept_job .encode) rfl)
  refine ⟨_, u, exec_accepts hb hwin, rfl, hturn, hstatus, hlen, ?_⟩
  rw [hlen]
  exact ⟨hread, hframe, hjob, hsrc, hn, hdst, hfaults⟩

/-! ## The result of a job as a function of its source bytes (41_encode.md R75, 42_decode.md R92) -/

/-- What a command makes of the bytes of its source window: the code it reports and the bytes it delivers. -/
def commandResult (i : Instr) (source : List Byte) : ResultCode × List Byte :=
  match i with
  | .encode => (.ok, enc source)
  | .decode =>
    match dec source with
    | .ok out => (.ok, out)
    | .invalidInput => (.invalidInput, [])

/-- A job that completes reports and delivers what its command makes of its source window, and nothing else goes into it. -/
theorem State.Inv.finish_result {s : State} {j : Job} {code : ResultCode} {out : List Byte} (h : s.Inv)
    (hj : s.job = some j) (hr : commandResult j.op (Memory.read s.mem j.src.toNat j.n.toNat) = (code, out)) :
    (s.finish j).status = statusWord false true code ∧ (s.finish j).outLen.toNat = out.length ∧
      Memory.read (s.finish j).mem j.dst.toNat out.length = out := by
  obtain ⟨_, hfit, hmax, hwlen⟩ := h.bounds hj
  rcases s.finish_cases j with ⟨hop, hf⟩ | ⟨hop, bytes, hdec, hf⟩ | ⟨hop, hdec, hf⟩ <;> rw [hf]
  · simp only [commandResult, hop, Prod.mk.injEq] at hr
    obtain ⟨rfl, rfl⟩ := hr
    have hlen := h.length_enc hj hop
    exact ⟨rfl, State.finishOk_result h.wf (by omega) (by omega)⟩
  · simp only [commandResult, hop, hdec, Prod.mk.injEq] at hr
    obtain ⟨rfl, rfl⟩ := hr
    have hlen := dec_length_le hdec
    rw [Memory.read_length, ← hop, ← hwlen] at hlen
    exact ⟨rfl, State.finishOk_result h.wf (by omega) (by omega)⟩
  · simp only [commandResult, hop, hdec, Prod.mk.injEq] at hr
    obtain ⟨rfl, rfl⟩ := hr
    exact ⟨rfl, rfl, rfl⟩

/-- The engine's turn over admitted windows, where it answers a next state, completes the job. -/
theorem eq_finish_of_engineTurn {s t : State} {j : Job} (hj : s.job = some j) (hadm : jobAdmitted s.platform j = true)
    (h : engineTurn s = .next t) : t = s.finish j := by
  rw [engineTurn_job hj] at h
  rcases complete_cases h with ⟨hbad, _⟩ | ⟨_, _, rfl⟩
  · simp [hadm] at hbad
  · rfl

/-- Settles O38: both machines deliver what the job's command makes of the one source window. -/
theorem resultDependsOnlyOnTheSourceBytes : Obligations.ResultDependsOnlyOnTheSourceBytes := by
  unfold Obligations.ResultDependsOnlyOnTheSourceBytes
  intro s s' t t' j hs hs' hj hj' hplatform hadm hsource h h'
  obtain rfl := eq_finish_of_engineTurn hj hadm h
  obtain rfl := eq_finish_of_engineTurn hj' (hplatform ▸ hadm) h'
  obtain ⟨⟨code, out⟩, hr⟩ : ∃ r, commandResult j.op (Memory.read s.mem j.src.toNat j.n.toNat) = r := ⟨_, rfl⟩
  obtain ⟨hstatus, hlen, hread⟩ := hs.finish_result hj hr
  obtain ⟨hstatus', hlen', hread'⟩ := hs'.finish_result hj' (hsource ▸ hr)
  refine ⟨hstatus.trans hstatus'.symm, BitVec.eq_of_toNat_eq (hlen.trans hlen'.symm), ?_⟩
  rw [hlen, hlen', hread, hread']

end Sys2Proof.Machine
end

section
/-! SUPPORT. The decoder: when a text decodes, group by group, and the round trips (42_decode.md R80 to R91). -/

namespace Sys2Proof.Machine

/-! ## The causes of INVALID_INPUT (42_decode.md R88) -/

theorem CodecResult.prepend_eq_invalidInput {r : CodecResult} {g : List Byte} :
    r.prepend g = .invalidInput ↔ r = .invalidInput := by
  cases r <;> simp [CodecResult.prepend]

/-- Group `g` of the slots fails the pad check (42_decode.md R82). -/
def failsPadCheck (es : List RevEntry) (g : Nat) : Prop :=
  padOK (decide (g + 1 = es.length / 4)) (es.getD (4 * g) .invalid) (es.getD (4 * g + 1) .invalid)
    (es.getD (4 * g + 2) .invalid) (es.getD (4 * g + 3) .invalid) = false

theorem failsPadCheck_succ {e1 e2 e3 e4 : RevEntry} {rest : List RevEntry} {g : Nat} :
    failsPadCheck (e1 :: e2 :: e3 :: e4 :: rest) (g + 1) ↔ failsPadCheck rest g := by
  have hlast : g + 1 + 1 = (rest.length + 4) / 4 ↔ g + 1 = rest.length / 4 := by omega
  simp [failsPadCheck, Nat.mul_succ, hlast]

/-- The first group is the final one when no slot follows it. -/
theorem failsPadCheck_zero {e1 e2 e3 e4 : RevEntry} {rest : List RevEntry} (h : rest.length % 4 = 0) :
    failsPadCheck (e1 :: e2 :: e3 :: e4 :: rest) 0 ↔ padOK rest.isEmpty e1 e2 e3 e4 = false := by
  have hfinal : decide (0 + 1 = (rest.length + 4) / 4) = rest.isEmpty := by
    rw [Bool.eq_iff_iff, decide_eq_true_iff, List.isEmpty_iff_length_eq_zero]
    omega
  simp only [failsPadCheck, List.length_cons, Nat.add_assoc, Nat.reduceAdd, hfinal]
  rfl

/-- The group loop ends with an error exactly when some group fails the pad check. -/
theorem decGroups_eq_invalidInput {es : List RevEntry} (h : es.length % 4 = 0) :
    decGroups es = .invalidInput ↔ ∃ g, g < es.length / 4 ∧ failsPadCheck es g := by
  induction es using decGroups.induct with
  | case1 e1 e2 e3 e4 rest hpad ih =>
    have hrest : rest.length % 4 = 0 := (Nat.add_mod_right rest.length 4).symm.trans h
    rw [decGroups, if_pos hpad, CodecResult.prepend_eq_invalidInput, ih hrest]
    constructor
    · rintro ⟨g, hg, hfail⟩
      exact ⟨g + 1, by simp only [List.length_cons]; omega, failsPadCheck_succ.2 hfail⟩
    · rintro ⟨g, hg, hfail⟩
      cases g with
      | zero => simp [(failsPadCheck_zero hrest).1 hfail] at hpad
      | succ g => exact ⟨g, by simp only [List.length_cons] at hg; omega, failsPadCheck_succ.1 hfail⟩
  | case2 e1 e2 e3 e4 rest hpad =>
    have hrest : rest.length % 4 = 0 := (Nat.add_mod_right rest.length 4).symm.trans h
    rw [decGroups, if_neg hpad]
    exact iff_of_true rfl ⟨0, by simp, (failsPadCheck_zero hrest).2 (by simpa using hpad)⟩
  | case3 es hshort =>
    have hfew : es.length < 4 := by
      match es, hshort with
      | [], _ | [_], _ | [_, _], _ | [_, _, _], _ => simp
      | e1 :: e2 :: e3 :: e4 :: rest, hshort => exact absurd rfl (hshort e1 e2 e3 e4 rest)
    rw [decGroups.eq_2 es hshort, Nat.div_eq_of_lt hfew]
    simp

/-- The slots of a text fail the pad check where REV of its bytes does. -/
theorem failsPadCheck_map {t : List Byte} {g : Nat} (hg : g < t.length / 4) :
    failsPadCheck (t.map indexOf) g ↔
      padOK (decide (g + 1 = t.length / 4)) (indexOf (t.getD (4 * g) 0)) (indexOf (t.getD (4 * g + 1) 0))
        (indexOf (t.getD (4 * g + 2) 0)) (indexOf (t.getD (4 * g + 3) 0)) = false := by
  have hslot : ∀ i, i < t.length → (t.map indexOf).getD i .invalid = indexOf (t.getD i 0) := by
    intro i hi
    rw [List.getD_eq_getElem _ _ (by simpa using hi), List.getD_eq_getElem _ _ hi, List.getElem_map]
  rw [failsPadCheck, List.length_map, hslot _ (by omega), hslot _ (by omega), hslot _ (by omega), hslot _ (by omega)]

/-- Settles O24: the length check, the symbol check and the group loop, one cause each. -/
theorem decFailsOnTheThreeCauses : Obligations.DecFailsOnTheThreeCauses := by
  unfold Obligations.DecFailsOnTheThreeCauses
  intro t
  by_cases hlen : t.length % 4 = 0
  · by_cases hsym : ∃ c ∈ t, indexOf c = .invalid
    · simp [dec, hsym]
    · have hloop : dec t = decGroups (t.map indexOf) := by
        rw [dec, if_neg (not_not.2 hlen), if_neg (by simpa using hsym)]
      rw [hloop, decGroups_eq_invalidInput (by simpa using hlen), List.length_map]
      simp only [hlen, hsym, ne_eq, not_true_eq_false, false_or, true_and]
      exact exists_congr fun g => and_congr_right failsPadCheck_map
  · simp [dec, hlen]

/-! ## Texts that decode (42_decode.md R88) -/

/-- `t` is a text that decodes, and `out` its bytes: full groups, and at the end one group with one or two pads or none. -/
inductive DecodesTo : List Byte → List Byte → Prop where
  | nil : DecodesTo [] []
  | twoPads (v0 v1 : Sextet) : DecodesTo [valueOf v0, valueOf v1, padByte, padByte] (decGroup2 v0 v1)
  | onePad (v0 v1 v2 : Sextet) : DecodesTo [valueOf v0, valueOf v1, valueOf v2, padByte] (decGroup3 v0 v1 v2)
  | group (v0 v1 v2 v3 : Sextet) {t out : List Byte} (rest : DecodesTo t out) :
    DecodesTo (valueOf v0 :: valueOf v1 :: valueOf v2 :: valueOf v3 :: t) (decGroup4 v0 v1 v2 v3 ++ out)

/-- The slots of a text that pass the group loop are those of full groups and one last group. -/
theorem decodesTo_of_decGroups {t out : List Byte} (hlen : t.length % 4 = 0) (h : decGroups (t.map indexOf) = .ok out) :
    DecodesTo t out := by
  match t, hlen with
  | [], _ =>
    cases h
    exact .nil
  | c1 :: c2 :: c3 :: c4 :: rest, hlen =>
    have hrest : rest.length % 4 = 0 := (Nat.add_mod_right rest.length 4).symm.trans hlen
    simp only [List.map_cons, decGroups] at h
    split at h
    · rename_i hpad
      obtain ⟨tail, htail, rfl⟩ := CodecResult.prepend_eq_ok.1 h
      have hdec := decodesTo_of_decGroups hrest htail
      obtain ⟨v0, v1, h0, h1, hlast⟩ := (legalPadPatterns _ _ _ _ _).1 hpad
      rw [h0, h1, indexOf_eq_value.1 h0, indexOf_eq_value.1 h1]
      rcases hlast with ⟨v2, v3, h2, h3⟩ | ⟨hfinal, ⟨v2, h2⟩, h3⟩ | ⟨hfinal, h2, h3⟩
      · rw [h2, h3, indexOf_eq_value.1 h2, indexOf_eq_value.1 h3]
        exact .group v0 v1 v2 v3 hdec
      · obtain rfl : rest = [] := by simpa using hfinal
        cases htail
        rw [h2, h3, indexOf_eq_value.1 h2, indexOf_eq_pad.1 h3]
        exact .onePad v0 v1 v2
      · obtain rfl : rest = [] := by simpa using hfinal
        cases htail
        rw [h2, h3, indexOf_eq_pad.1 h2, indexOf_eq_pad.1 h3]
        exact .twoPads v0 v1
    · cases h

theorem DecodesTo.length_mod {t out : List Byte} (h : DecodesTo t out) : t.length % 4 = 0 := by
  induction h with
  | nil | twoPads | onePad => simp
  | group v0 v1 v2 v3 rest ih => exact (Nat.add_mod_right _ 4).trans ih

theorem DecodesTo.no_invalid {t out : List Byte} (h : DecodesTo t out) : ∀ c ∈ t, indexOf c ≠ .invalid := by
  induction h with
  | nil | twoPads | onePad => simp
  | group v0 v1 v2 v3 rest ih => simpa using ih

theorem DecodesTo.decGroups_eq {t out : List Byte} (h : DecodesTo t out) : decGroups (t.map indexOf) = .ok out := by
  induction h with
  | nil => rfl
  | twoPads v0 v1 => simp [decGroups, padOK, RevEntry.isValue, decGroup, CodecResult.prepend]
  | onePad v0 v1 v2 => simp [decGroups, padOK, RevEntry.isValue, decGroup, CodecResult.prepend]
  | group v0 v1 v2 v3 rest ih => simp [decGroups, padOK, RevEntry.isValue, decGroup, CodecResult.prepend, ih]

/-- `Dec` succeeds exactly on the texts that decode, with their bytes. -/
theorem dec_eq_ok {t out : List Byte} : dec t = .ok out ↔ DecodesTo t out := by
  constructor
  · intro h
    unfold dec at h
    split at h
    · cases h
    · rename_i hlen
      split at h
      · cases h
      · exact decodesTo_of_decGroups (not_not.1 hlen) h
  · intro h
    have hsym : ¬ (t.any fun c => indexOf c == .invalid) = true := by simpa using h.no_invalid
    rw [dec, if_neg (not_not.2 h.length_mod), if_neg hsym, h.decGroups_eq]

/-- A group's bytes come first, and the groups after it give theirs three bytes on. -/
theorem DecodesTo.take_group {t out : List Byte} (h : DecodesTo t out) {g : Nat} (hg : g < t.length / 4) :
    (out.drop (3 * g)).take 3 =
      decGroup (indexOf (t.getD (4 * g) 0)) (indexOf (t.getD (4 * g + 1) 0)) (indexOf (t.getD (4 * g + 2) 0))
        (indexOf (t.getD (4 * g + 3) 0)) := by
  induction h generalizing g with
  | nil => simp at hg
  | twoPads v0 v1 =>
    obtain rfl : g = 0 := by simpa using hg
    simp [decGroup, decGroup2]
  | onePad v0 v1 v2 =>
    obtain rfl : g = 0 := by simpa using hg
    simp [decGroup, decGroup3]
  | group v0 v1 v2 v3 rest ih =>
    cases g with
    | zero => simp [decGroup, decGroup4]
    | succ g => simpa [Nat.mul_succ, decGroup4] using ih (by simp only [List.length_cons] at hg; omega)

/-- Three bytes a group less the pads, of which only the last group has any (42_decode.md R89). -/
theorem DecodesTo.length_add_pads {t out : List Byte} (h : DecodesTo t out) :
    out.length + t.count padByte = 3 * (t.length / 4) ∧ t.count padByte ≤ 2 := by
  induction h with
  | nil => simp
  | twoPads v0 v1 => simp [decGroup2]
  | onePad v0 v1 v2 => simp [decGroup3]
  | @group v0 v1 v2 v3 t out rest ih =>
    obtain ⟨hlen, hpads⟩ := ih
    have hcount : (valueOf v0 :: valueOf v1 :: valueOf v2 :: valueOf v3 :: t).count padByte = t.count padByte := by simp
    rw [hcount]
    refine ⟨?_, hpads⟩
    simp only [decGroup4, List.length_append, List.length_cons, List.length_nil]
    omega

/-- Settles O25: by induction on the groups of a text that decodes. -/
theorem decWorksGroupByGroup : Obligations.DecWorksGroupByGroup := by
  unfold Obligations.DecWorksGroupByGroup
  intro t out h
  rw [dec_eq_ok] at h
  exact ⟨fun g => h.take_group, h.length_add_pads⟩

/-! ## Decoding inverts encoding (42_decode.md R91 (1)) -/

theorem decB0_encV (b0 b1 : Byte) : decB0 (encV0 b0) (encV1 b0 b1) = b0 := by
  have h1 := b1.isLt
  refine BitVec.eq_of_toNat_eq ?_
  rw [toNat_decB0, toNat_encV0, toNat_encV1]
  omega

theorem decB1_encV (b0 b1 b2 : Byte) : decB1 (encV1 b0 b1) (encV2 b1 b2) = b1 := by
  have h1 := b1.isLt
  have h2 := b2.isLt
  refine BitVec.eq_of_toNat_eq ?_
  rw [toNat_decB1, toNat_encV1, toNat_encV2]
  omega

theorem decB2_encV (b1 b2 : Byte) : decB2 (encV2 b1 b2) (encV3 b2) = b2 := by
  have h2 := b2.isLt
  refine BitVec.eq_of_toNat_eq ?_
  rw [toNat_decB2, toNat_encV2, toNat_encV3]
  omega

/-- A final group of one byte is a full group's first two sextets, the missing byte 0 (41_encode.md R70). -/
theorem enc_one (b0 : Byte) : enc [b0] = [valueOf (encV0 b0), valueOf (encV1 b0 0#8), padByte, padByte] := by
  rw [enc, encGroup1_eq_take]
  rfl

/-- A final group of two bytes is a full group's first three sextets, the missing byte 0 (41_encode.md R69). -/
theorem enc_two (b0 b1 : Byte) :
    enc [b0, b1] = [valueOf (encV0 b0), valueOf (encV1 b0 b1), valueOf (encV2 b1 0#8), padByte] := by
  rw [enc, encGroup2_eq_take]
  rfl

theorem decodesTo_enc (b : List Byte) : DecodesTo (enc b) b := by
  induction b using enc.induct with
  | case1 => exact .nil
  | case2 b0 => simpa [enc_one, decGroup2, decB0_encV] using DecodesTo.twoPads (encV0 b0) (encV1 b0 0#8)
  | case3 b0 b1 =>
    simpa [enc_two, decGroup3, decB0_encV, decB1_encV] using DecodesTo.onePad (encV0 b0) (encV1 b0 b1) (encV2 b1 0#8)
  | case4 b0 b1 b2 rest ih =>
    simpa [enc, encGroup3, decGroup4, decB0_encV, decB1_encV, decB2_encV] using
      DecodesTo.group (encV0 b0) (encV1 b0 b1) (encV2 b1 b2) (encV3 b2) ih

/-- Settles O26: by induction on the groups of the input, each group's bytes come back out of its sextets. -/
theorem decodingInvertsEncoding : Obligations.DecodingInvertsEncoding := by
  unfold Obligations.DecodingInvertsEncoding
  exact fun b => dec_eq_ok.2 (decodesTo_enc b)

/-! ## Encoding again a text that decodes (42_decode.md R90, R91 (2) and (3)) -/

theorem encV0_decB (v0 v1 : Sextet) : encV0 (decB0 v0 v1) = v0 := by
  have h1 := v1.isLt
  refine BitVec.eq_of_toNat_eq ?_
  rw [toNat_encV0, toNat_decB0]
  omega

theorem encV1_decB (v0 v1 v2 : Sextet) : encV1 (decB0 v0 v1) (decB1 v1 v2) = v1 := by
  have h1 := v1.isLt
  have h2 := v2.isLt
  refine BitVec.eq_of_toNat_eq ?_
  rw [toNat_encV1, toNat_decB0, toNat_decB1]
  omega

theorem encV2_decB (v1 v2 v3 : Sextet) : encV2 (decB1 v1 v2) (decB2 v2 v3) = v2 := by
  have h2 := v2.isLt
  have h3 := v3.isLt
  refine BitVec.eq_of_toNat_eq ?_
  rw [toNat_encV2, toNat_decB1, toNat_decB2]
  omega

theorem encV3_decB (v2 v3 : Sextet) : encV3 (decB2 v2 v3) = v3 := by
  have h3 := v3.isLt
  refine BitVec.eq_of_toNat_eq ?_
  rw [toNat_encV3, toNat_decB2]
  omega

/-- The `k` low bits of a sextet are 0 when it is a multiple of `2 ^ k`. -/
theorem and_lowMask_eq_zero {v m : Sextet} {k : Nat} (hm : m.toNat = 2 ^ k - 1) : v &&& m = 0#6 ↔ v.toNat % 2 ^ k = 0 := by
  rw [← BitVec.toNat_inj, BitVec.toNat_and, hm, Nat.and_two_pow_sub_one_eq_mod]
  rfl

/-- Before two pads the sextet comes back exactly when its discarded bits are 0. -/
theorem encV1_decB0_eq_iff {v0 v1 : Sextet} : encV1 (decB0 v0 v1) 0#8 = v1 ↔ v1 &&& 0x0F#6 = 0#6 := by
  have h1 := v1.isLt
  have hzero : (0#8).toNat = 0 := rfl
  rw [and_lowMask_eq_zero (k := 4) rfl, ← BitVec.toNat_inj, toNat_encV1, toNat_decB0, hzero]
  omega

/-- Before one pad the sextet comes back exactly when its discarded bits are 0. -/
theorem encV2_decB1_eq_iff {v1 v2 : Sextet} : encV2 (decB1 v1 v2) 0#8 = v2 ↔ v2 &&& 0x03#6 = 0#6 := by
  have h2 := v2.isLt
  have hzero : (0#8).toNat = 0 := rfl
  rw [and_lowMask_eq_zero (k := 2) rfl, ← BitVec.toNat_inj, toNat_encV2, toNat_decB1, hzero]
  omega

/-- The texts are alike but for the last character before their pads. -/
def DifferBeforeThePads (t t' : List Byte) : Prop :=
  ∃ (body : List Sextet) (v v' : Sextet) (pads : Nat), v ≠ v' ∧
    t = body.map valueOf ++ valueOf v :: List.replicate pads padByte ∧
    t' = body.map valueOf ++ valueOf v' :: List.replicate pads padByte

theorem DifferBeforeThePads.irrefl (t : List Byte) : ¬ DifferBeforeThePads t t := by
  rintro ⟨body, v, v', pads, hne, rfl, h⟩
  simp [hne] at h

theorem DifferBeforeThePads.length_eq {t t' : List Byte} (h : DifferBeforeThePads t t') : t'.length = t.length := by
  obtain ⟨body, v, v', pads, _, rfl, rfl⟩ := h
  simp

/-- The last character before the pads is the one with as many characters after it as there are pads. -/
theorem DifferBeforeThePads.getD_ne_iff {t t' : List Byte} (h : DifferBeforeThePads t t') (i : Nat) :
    t'.getD i 0 ≠ t.getD i 0 ↔ i + 1 + t.count padByte = t.length := by
  obtain ⟨body, v, v', pads, hne, rfl, rfl⟩ := h
  have hpos : i + 1 + (body.map valueOf ++ valueOf v :: List.replicate pads padByte).count padByte =
      (body.map valueOf ++ valueOf v :: List.replicate pads padByte).length ↔ i = body.length := by
    have hcount : (body.map valueOf ++ valueOf v :: List.replicate pads padByte).count padByte = pads := by
      simp [List.count_eq_zero]
    rw [hcount, List.length_append, List.length_map, List.length_cons, List.length_replicate]
    omega
  rw [hpos]
  simp only [List.getD_eq_getElem?_getD]
  rcases lt_trichotomy i body.length with hi | rfl | hi
  · simp [List.getElem?_append_left, hi, hi.ne]
  · simp [hne.symm]
  · obtain ⟨k, rfl⟩ := Nat.exists_eq_add_of_lt hi
    simp [List.getElem?_append_right, Nat.add_assoc]

theorem DifferBeforeThePads.group {t t' : List Byte} (h : DifferBeforeThePads t t') (v0 v1 v2 v3 : Sextet) :
    DifferBeforeThePads (valueOf v0 :: valueOf v1 :: valueOf v2 :: valueOf v3 :: t)
      (valueOf v0 :: valueOf v1 :: valueOf v2 :: valueOf v3 :: t') := by
  obtain ⟨body, v, v', pads, hne, rfl, rfl⟩ := h
  exact ⟨v0 :: v1 :: v2 :: v3 :: body, v, v', pads, hne, rfl, rfl⟩

theorem enc_decGroup4 (v0 v1 v2 v3 : Sextet) (out : List Byte) :
    enc (decGroup4 v0 v1 v2 v3 ++ out) = valueOf v0 :: valueOf v1 :: valueOf v2 :: valueOf v3 :: enc out := by
  simp [decGroup4, enc, encGroup3, encV0_decB, encV1_decB, encV2_decB, encV3_decB]

/-- Only the last group of a text that decodes can lose bits, and it loses them exactly when the text is not canonical. -/
theorem DecodesTo.enc_cases {t out : List Byte} (h : DecodesTo t out) :
    (canonical t = true ∧ enc out = t) ∨ (canonical t = false ∧ DifferBeforeThePads t (enc out)) := by
  induction h with
  | nil => exact .inl ⟨rfl, rfl⟩
  | twoPads v0 v1 =>
    have hcanon : canonical [valueOf v0, valueOf v1, padByte, padByte] = (v1 &&& 0x0F#6 == 0#6) := by
      simp [canonical, canonicalGroups, canonicalGroup]
    rw [hcanon, decGroup2, enc_one, encV0_decB]
    by_cases hv : encV1 (decB0 v0 v1) 0#8 = v1
    · exact .inl ⟨beq_iff_eq.2 (encV1_decB0_eq_iff.1 hv), by rw [hv]⟩
    · exact .inr ⟨beq_eq_false_iff_ne.2 (mt encV1_decB0_eq_iff.2 hv), [v0], v1, _, 2, Ne.symm hv, rfl, rfl⟩
  | onePad v0 v1 v2 =>
    have hcanon : canonical [valueOf v0, valueOf v1, valueOf v2, padByte] = (v2 &&& 0x03#6 == 0#6) := by
      simp [canonical, canonicalGroups, canonicalGroup]
    rw [hcanon, decGroup3, enc_two, encV0_decB, encV1_decB]
    by_cases hv : encV2 (decB1 v1 v2) 0#8 = v2
    · exact .inl ⟨beq_iff_eq.2 (encV2_decB1_eq_iff.1 hv), by rw [hv]⟩
    · exact .inr ⟨beq_eq_false_iff_ne.2 (mt encV2_decB1_eq_iff.2 hv), [v0, v1], v2, _, 1, Ne.symm hv, rfl, rfl⟩
  | @group v0 v1 v2 v3 t out rest ih =>
    have hcanon : canonical (valueOf v0 :: valueOf v1 :: valueOf v2 :: valueOf v3 :: t) = canonical t := by
      simp [canonical, canonicalGroups, canonicalGroup]
    rw [hcanon, enc_decGroup4]
    exact ih.imp (fun ⟨hc, he⟩ => ⟨hc, by rw [he]⟩) fun ⟨hc, hd⟩ => ⟨hc, hd.group v0 v1 v2 v3⟩

/-- Settles O27: a text that decodes is its re-encoding, or differs from it in the one character before its pads. -/
theorem reencodingATextThatDecodes : Obligations.ReencodingATextThatDecodes := by
  unfold Obligations.ReencodingATextThatDecodes
  intro t out h
  rcases (dec_eq_ok.1 h).enc_cases with ⟨hc, he⟩ | ⟨hc, hd⟩
  · simp [hc, he]
  · exact ⟨fun hc' => absurd hc' (by simp [hc]), fun _ => ⟨hd.length_eq, fun i _ => hd.getD_ne_iff i⟩⟩

/-- Settles O28: an encoded text that was not canonical would differ from the encoding of its bytes, which it is. -/
theorem encodedTextIsCanonical : Obligations.EncodedTextIsCanonical := by
  unfold Obligations.EncodedTextIsCanonical
  intro b
  rcases (decodesTo_enc b).enc_cases with ⟨hc, _⟩ | ⟨_, hd⟩
  · exact hc
  · exact absurd hd (DifferBeforeThePads.irrefl _)

end Sys2Proof.Machine
end

section
/-! SUPPORT. The DECODE command from its CMD write to its completion, and the round trip of a buffer through the register
interface (42_decode.md R91, R93, R94). -/

namespace Sys2Proof.Machine

/-- Settles O7: the accepted state of DECODE, its window length written out. -/
theorem decodeIsAccepted : Obligations.DecodeIsAccepted := by
  unfold Obligations.DecodeIsAccepted
  intro s hb hwin
  exact exec_accepts hb hwin

/-! ## Completion (42_decode.md R94) -/

theorem State.finish_decode_ok {s : State} {j : Job} {out : List Byte} (hop : j.op = .decode)
    (hdec : dec (Memory.read s.mem j.src.toNat j.n.toNat) = .ok out) : s.finish j = s.finishOk j out := by
  simp [State.finish, hop, hdec, State.finishDecode]

theorem State.finish_decode_invalidInput {s : State} {j : Job} (hop : j.op = .decode)
    (hdec : dec (Memory.read s.mem j.src.toNat j.n.toNat) = .invalidInput) : s.finish j = s.finishErr j := by
  simp [State.finish, hop, hdec, State.finishDecode]

/-- The bytes of a DECODE job fit its destination window (42_decode.md R89). -/
theorem State.Inv.length_dec_le {s : State} {j : Job} {out : List Byte} (h : s.Inv) (hj : s.job = some j)
    (hop : j.op = .decode) (hdec : dec (Memory.read s.mem j.src.toNat j.n.toNat) = .ok out) : out.length ≤ j.wlen := by
  obtain ⟨_, _, _, hwlen⟩ := h.bounds hj
  simpa [hwlen, hop] using dec_length_le hdec

/-- Settles O30: exactly the bytes are written, and they fit the destination window, so they are read back there. -/
theorem decodeCompletionWithBytes : Obligations.DecodeCompletionWithBytes := by
  unfold Obligations.DecodeCompletionWithBytes
  intro s j out hs hj hop hadm hord hdec
  obtain ⟨_, hfit, hmax, _⟩ := hs.bounds hj
  have hlen := hs.length_dec_le hj hop hdec
  have hout : j.dst.toNat + out.length ≤ 2 ^ 32 := by omega
  obtain ⟨houtLen, hread⟩ := State.finishOk_result hs.wf hout (by omega)
  rw [engineTurn_job hj, complete_good hadm hord, State.finish_decode_ok hop hdec]
  exact ⟨_, rfl, hlen, hread, fun a => Memory.get_write_outside hs.wf le_rfl hout, houtLen,
    rfl, rfl, rfl, rfl, rfl, rfl, rfl, rfl, rfl, rfl⟩

/-- Settles O31: the draws fill the destination window and are written nowhere else. -/
theorem decodeCompletionWithInvalidInput : Obligations.DecodeCompletionWithInvalidInput := by
  unfold Obligations.DecodeCompletionWithInvalidInput
  intro s j hs hj hop hadm hord hdec
  obtain ⟨_, hfit, _, _⟩ := hs.bounds hj
  rw [engineTurn_job hj, complete_good hadm hord, State.finish_decode_invalidInput hop hdec]
  exact ⟨_, rfl, fun a => Memory.get_write_outside hs.wf (drawBytes_length _ _).le hfit,
    rfl, rfl, rfl, rfl, rfl, rfl, rfl, rfl, rfl, rfl, rfl⟩

/-! ## The whole command (42_decode.md R93) -/

/-- Settles O35: the accepted state meets the invariant with the DECODE job in flight, and its completion is that of R94. -/
theorem decodeCommandDeliversTheBytes : Obligations.DecodeCommandDeliversTheBytes := by
  unfold Obligations.DecodeCommandDeliversTheBytes
  intro s out hs hb hwin hwindows hdec
  obtain ⟨hadm, hord⟩ := Bool.and_eq_true_iff.1 hwindows
  obtain ⟨u, hturn, _, hread, hframe, houtLen, hstatus, hjob, hsrc, hn, hdst, hfaults, _⟩ :=
    decodeCompletionWithBytes _ _ out (State.accept_inv hs.wf hwin) (s.accept_job .decode) rfl hadm hord hdec
  exact ⟨_, u, exec_accepts hb hwin, rfl, hturn, hstatus, houtLen, hread, hframe, hjob, hsrc, hn, hdst, hfaults⟩

/-- Settles O36: the same accepted state, and the completion of R94 for a text that does not decode. -/
theorem decodeCommandReportsInvalidInput : Obligations.DecodeCommandReportsInvalidInput := by
  unfold Obligations.DecodeCommandReportsInvalidInput
  intro s hs hb hwin hwindows hdec
  obtain ⟨hadm, hord⟩ := Bool.and_eq_true_iff.1 hwindows
  obtain ⟨u, hturn, hframe, houtLen, hstatus, hjob, hsrc, hn, hdst, hfaults, _⟩ :=
    decodeCompletionWithInvalidInput _ _ (State.accept_inv hs.wf hwin) (s.accept_job .decode) rfl hadm hord hdec
  exact ⟨_, u, exec_accepts hb hwin, rfl, hturn, hstatus, houtLen, hframe, hjob, hsrc, hn, hdst, hfaults⟩

/-! ## A command as the host writes it (30_encoding.md R60) -/

theorem Reg.at_offset (r : Reg) : Reg.at (Reg.offset r) = r := by
  cases r <;> rfl

theorem step_wr {s : State} {r : Reg} {v : Word} {rest : List Event} (hnext : s.inputs = wr r v :: rest) (hr : r ≠ .cmd)
    (hb : s.busy = false) : step s = .next ((s.setInputs rest).writeReg r v) := by
  have hoff : (Reg.offset r).toNat % 4 = 0 := by cases r <;> rfl
  have hwrite := regWrite_of_not_busy (s := s.setInputs rest) (v := v) hoff (by rwa [Reg.at_offset]) hb
  rw [step_event hnext]
  rwa [Reg.at_offset] at hwrite

/-- The state with the operands of a command in the parameter registers. -/
def State.withOperands (s : State) (a n d : Word) : State := ((s.setSrcAddr a).setSrcLen n).setDstAddr d

/-- The state with a command on its operands accepted, and `rest` left of the schedule. -/
def State.started (s : State) (i : Instr) (a n d : Word) (rest : List Event) : State :=
  ((s.withOperands a n d).accept i).setInputs rest

/-- The four writes of a command store its operands and start its job. -/
theorem steps_command {s : State} {i : Instr} {a n d : Word} {rest : List Event} (hb : s.busy = false)
    (hnext : s.inputs = command i a n d ++ rest) (hwin : (s.withOperands a n d).windowOK i = true) :
    steps 4 s = .next (s.started i a n d rest) := by
  have hsrc := step_wr hnext (by decide) hb
  have hlen := step_wr (s := (s.setSrcAddr a).setInputs (wr .srcLen n :: wr .dstAddr d :: wr .cmd (encode i) :: rest))
    rfl (by decide) hb
  have hdst := step_wr (s := ((s.setSrcAddr a).setSrcLen n).setInputs (wr .dstAddr d :: wr .cmd (encode i) :: rest))
    rfl (by decide) hb
  have hcmd := (step_cmd (s := (s.withOperands a n d).setInputs (wr .cmd (encode i) :: rest)) rfl
    (cmdDecode_eq_command.2 rfl)).trans (exec_accepts hb hwin)
  exact (steps_succ 3 hsrc).trans <| (steps_succ 2 hlen).trans <| (steps_succ 1 hdst).trans <| steps_succ 0 hcmd

/-! ## The windows of a command, byte by byte -/

theorem jobAdmitted_iff {p : Platform} {j : Job} :
    jobAdmitted p j = true ↔ (∀ x, inWindow j.src.toNat j.n.toNat x = true → memAdmits p x .read = true) ∧
      ∀ x, inWindow j.dst.toNat j.wlen x = true → memAdmits p x .write = true := by
  simp only [jobAdmitted, Bool.and_eq_true_iff, allFrom_iff, inWindow_iff, and_imp]

theorem jobOrdinary_iff {p : Platform} {j : Job} :
    jobOrdinary p j = true ↔ (∀ x, inWindow j.src.toNat j.n.toNat x = true → isOrdinary p x = true) ∧
      ∀ x, inWindow j.dst.toNat j.wlen x = true → isOrdinary p x = true := by
  simp only [jobOrdinary, Bool.and_eq_true_iff, allFrom_iff, inWindow_iff, and_imp]

/-- The windows of a command with operands `a`, `n`, `d` are admitted, ordinary memory when each of their bytes is. -/
theorem State.ordinaryWindows_withOperands {s : State} {i : Instr} {a n d : Word}
    (hsrc : ∀ x, inWindow a.toNat n.toNat x = true →
      memAdmits s.platform x .read = true ∧ isOrdinary s.platform x = true)
    (hdst : ∀ x, inWindow d.toNat (wlen i n.toNat) x = true →
      memAdmits s.platform x .write = true ∧ isOrdinary s.platform x = true) :
    (s.withOperands a n d).ordinaryWindows i = true :=
  Bool.and_eq_true_iff.2
    ⟨jobAdmitted_iff.2 ⟨fun x hx => (hsrc x hx).1, fun x hx => (hdst x hx).1⟩,
      jobOrdinary_iff.2 ⟨fun x hx => (hsrc x hx).2, fun x hx => (hdst x hx).2⟩⟩

/-! ## A command and the engine's turn -/

@[simp] theorem State.finish_inputs (s : State) (j : Job) : (s.finish j).inputs = s.inputs := by
  rcases s.finish_cases j with ⟨_, h⟩ | ⟨_, _, _, h⟩ | ⟨_, _, h⟩ <;> rw [h] <;> rfl

@[simp] theorem State.finish_faults (s : State) (j : Job) : (s.finish j).faults = s.faults := by
  rcases s.finish_cases j with ⟨_, h⟩ | ⟨_, _, _, h⟩ | ⟨_, _, h⟩ <;> rw [h] <;> rfl

/-- From an idle block a command's writes and the engine's turn leave an idle block, with the report and the result that the
command makes of the source bytes. -/
theorem steps_command_engine {s : State} {i : Instr} {a n d : Word} {rest : List Event} {code : ResultCode}
    {out : List Byte} (hs : s.Inv) (hb : s.busy = false) (hnext : s.inputs = command i a n d ++ .engine :: rest)
    (hwin : (s.withOperands a n d).windowOK i = true) (hwindows : (s.withOperands a n d).ordinaryWindows i = true)
    (hr : commandResult i (Memory.read s.mem a.toNat n.toNat) = (code, out)) :
    ∃ u, steps 5 s = .next u ∧ u.Inv ∧ u.busy = false ∧
      u.inputs = rest ∧ u.platform = s.platform ∧ u.faults = s.faults ∧
      u.status = statusWord false true code ∧ u.outLen.toNat = out.length ∧ Memory.read u.mem d.toNat out.length = out := by
  obtain ⟨hadm, hord⟩ := Bool.and_eq_true_iff.1 hwindows
  have hstarted : (s.started i a n d rest).Inv :=
    (State.accept_inv (s := s.withOperands a n d) hs.wf hwin).setInputs rest
  have hjob : (s.started i a n d rest).job = some ((s.withOperands a n d).latch i) := rfl
  have hended := hstarted.finish hjob
  have hengine := (step_event (s := s.started i a n d (.engine :: rest)) rfl).trans <|
    (engineTurn_job hjob).trans (complete_good hadm hord)
  exact ⟨_, (steps_add 4 1 (steps_command hb hnext hwin)).trans (steps_succ 0 hengine), hended,
    hended.idle (State.finish_job _ _), State.finish_inputs _ _, State.finish_platform _ _, State.finish_faults _ _,
    hstarted.finish_result hjob hr⟩

/-! ## The round trip (42_decode.md R91 (1)) -/

theorem inWindow_of_le {a n m x : Nat} (h : inWindow a n x = true) (hle : n ≤ m) : inWindow a m x = true := by
  rw [inWindow_iff] at h ⊢
  omega

/-- DECODE of an encoded text has a window at most two bytes longer than the buffer. -/
theorem wlen_decode_wlen_encode_le (n : Nat) : wlen .decode (wlen .encode n) ≤ n + 2 := by
  simp only [wlen]
  omega

/-- Settles O37: the ENCODE command leaves the encoded text at `d`, the DECODE command finds it there, and decoding inverts
encoding. -/
theorem roundTripThroughMemory : Obligations.RoundTripThroughMemory := by
  unfold Obligations.RoundTripThroughMemory
  intro s a n d e rest hs hb hwinE hwinD hsrc htext hdst
  have hlen : (BitVec.ofNat 32 (wlen .encode n.toNat)).toNat = wlen .encode n.toNat := by
    obtain ⟨_, _, hmax, _⟩ := windowOK_iff.1 hwinE
    rw [BitVec.toNat_ofNat, Nat.mod_eq_of_lt (by omega)]
  generalize BitVec.ofNat 32 (wlen .encode n.toNat) = len at hlen
  obtain ⟨t, hencode, ht, htb, hinputs, (hplatform : t.platform = s.platform), hfaults, _, _, htextRead⟩ :=
    steps_command_engine
      (s := s.setInputs (command .encode a n d ++ .engine :: (command .decode d len e ++ .engine :: rest)))
      hs hb rfl hwinE (State.ordinaryWindows_withOperands hsrc fun x hx => (htext x hx).2) rfl
  have hresult : commandResult .decode (Memory.read t.mem d.toNat len.toNat) =
      (.ok, Memory.read s.mem a.toNat n.toNat) := by
    rw [enc_length, Memory.read_length] at htextRead
    rw [hlen, htextRead, commandResult, decodingInvertsEncoding]
    rfl
  rw [← hlen, ← hplatform] at hwinD htext
  rw [← hplatform] at hdst
  have hwindows : (t.withOperands d len e).ordinaryWindows .decode = true :=
    State.ordinaryWindows_withOperands (fun x hx => ⟨(htext x hx).1, (htext x hx).2.2⟩)
      fun x hx => hdst x (inWindow_of_le hx (hlen ▸ wlen_decode_wlen_encode_le n.toNat))
  obtain ⟨u, hdecode, _, _, hinputsU, _, hfaultsU, hstatus, houtLen, hread⟩ :=
    steps_command_engine ht htb hinputs hwinD hwindows hresult
  rw [Memory.read_length] at houtLen hread
  exact ⟨u, (steps_add 5 5 hencode).trans hdecode, hstatus, BitVec.eq_of_toNat_eq houtLen, hinputsU,
    hfaultsU.trans hfaults, hread⟩

end Sys2Proof.Machine
end

section
/-! SUPPORT. The refusal of a legal word's windows, and the recorded model faults (60_exceptions.md R98, R99). -/

namespace Sys2Proof.Machine

/-- Settles O8: the word of a command decodes to it, and a refused command reports WINDOW_ERROR without a job. -/
theorem windowErrorAtIssue : Obligations.WindowErrorAtIssue := by
  unfold Obligations.WindowErrorAtIssue
  intro i s hb hwin
  have hword : cmdDecode (encode i) = .command i := cmdDecode_eq_command.2 rfl
  exact regWrite_cmd.trans (cmdWrite_refuses hb hword hwin)

/-! ## Recorded faults (60_exceptions.md R99) -/

/-- Recording a fault sets its own bit and no other. -/
@[simp] theorem FaultBits.has_record {b : FaultBits} {f g : Fault} :
    (b.record g).has f = true ↔ f = g ∨ b.has f = true := by
  cases g <;> cases f <;> simp [FaultBits.record, FaultBits.has]

theorem engineTurn_keeps_fault {s t : State} {f : Fault} (h : engineTurn s = .next t) (hf : s.faults.has f = true) :
    t.faults.has f = true := by
  rcases engineTurn_cases h with ⟨_, rfl⟩ | ⟨j, _, ⟨_, rfl⟩ | ⟨_, _, rfl⟩⟩
  · exact hf
  · exact FaultBits.has_record.2 (.inr hf)
  · rwa [State.finish_faults]

theorem cmdWrite_faults {w : Word} {s t : State} (h : cmdWrite w s = .next t) : t.faults = s.faults := by
  rcases cmdWrite_cases h with ⟨_, rfl⟩ | ⟨_, ⟨i, _, _, rfl⟩ | rfl | rfl⟩
  · rfl
  · exact s.accept_faults i
  · exact s.report_faults .windowError 0
  · exact s.report_faults .illegalCommand 0

theorem regWrite_keeps_fault {width : Nat} {off : BitVec 6} {v : Word} {s t : State} {f : Fault}
    (h : regWrite width off v s = .next t) (hf : s.faults.has f = true) : t.faults.has f = true := by
  rcases regWrite_cases h with rfl | rfl | ⟨_, _, _, hcmd⟩ | ⟨_, rfl | rfl | rfl⟩
  · exact hf
  · exact FaultBits.has_record.2 (.inr hf)
  · rwa [cmdWrite_faults hcmd]
  · exact hf
  · exact hf
  · exact hf

theorem regRead_keeps_fault {width : Nat} {off : BitVec 6} {s t : State} {f : Fault}
    (h : regRead width off s = .next t) (hf : s.faults.has f = true) : t.faults.has f = true := by
  rcases regRead_cases h with rfl | rfl <;> simp [hf]

theorem hostStore_keeps_fault {a : Word} {b : Byte} {s t : State} {f : Fault} (h : hostStore a b s = .next t)
    (hf : s.faults.has f = true) : t.faults.has f = true := by
  rcases hostStore_cases h with rfl | ⟨_, rfl⟩ | ⟨_, rfl⟩ <;> simp [hf]

theorem hostLoad_keeps_fault {a : Word} {s t : State} {f : Fault} (h : hostLoad a s = .next t)
    (hf : s.faults.has f = true) : t.faults.has f = true := by
  rcases hostLoad_cases h with rfl | rfl | rfl <;> simp [hf]

/-- No event clears a recorded fault, not even RESET (70_reset_and_hazards.md R110). -/
theorem handle_keeps_fault {e : Event} {s t : State} {f : Fault} (h : handle e s = .next t)
    (hf : s.faults.has f = true) : t.faults.has f = true := by
  cases e with
  | regWrite width off v => exact regWrite_keeps_fault h hf
  | regRead width off => exact regRead_keeps_fault h hf
  | store a b => exact hostStore_keeps_fault h hf
  | load a => exact hostLoad_keeps_fault h hf
  | waitDone => cases h; exact hf
  | engine => exact engineTurn_keeps_fault h hf
  | reset => cases h; rwa [resetEvent_faults]

/-- Settles O54: a step is the engine's turn or the handling of one event, and each of the two keeps a recorded fault. -/
theorem noStepClearsAFault : Obligations.NoStepClearsAFault := by
  unfold Obligations.NoStepClearsAFault
  intro s t f h hf
  rcases step_cases h with ⟨_, hengine⟩ | ⟨e, rest, _, hevent⟩
  · exact engineTurn_keeps_fault hengine hf
  · exact handle_keeps_fault (s := s.setInputs rest) hevent hf

end Sys2Proof.Machine
end

section
/-! SUPPORT. RESET and the reset state (70_reset_and_hazards.md R110). -/

namespace Sys2Proof.Machine

/-! ## The draws of an aborted job (log entry 8) -/

theorem resetEvent_draws_idle {s : State} (hj : s.job = none) : (resetEvent s).draws = s.draws := by
  simp [resetEvent, hj]

theorem resetEvent_draws_job {s : State} {j : Job} (hj : s.job = some j) : (resetEvent s).draws = s.draws + j.wlen := by
  simp [resetEvent, hj]

/-- Byte `i` of a window of draws is draw `i` of its run. -/
theorem Memory.get_write_drawBytes {a c n i : Nat} {m : List Host.Cell} (h : Memory.wf m = true) (hfit : a + n ≤ 2 ^ 32)
    (hi : i < n) : Memory.get (Memory.write m a (drawBytes c n)) (a + i) = Config.drawByte (c + i) := by
  rw [Memory.get_write h (by simpa using hfit), drawBytes_length, if_pos (by omega), Nat.add_sub_cancel_left,
    drawBytes_getD c n i hi]

/-- Each byte of the destination window of the aborted job is a draw. -/
theorem resetEvent_get_window {s : State} {j : Job} {i : Nat} (hs : s.Inv) (hj : s.job = some j) (hi : i < j.wlen) :
    Memory.get (resetEvent s).mem (j.dst.toNat + i) = Config.drawByte (s.draws + i) := by
  obtain ⟨_, hfit, _, _⟩ := hs.bounds hj
  rw [resetEvent_mem_job s hj, Memory.get_write_drawBytes hs.wf hfit hi]

/-! ## The statements about RESET -/

/-- CMD and the reserved offsets read 0 in every state (10_state.md R14, R20). -/
theorem regRead_of_no_value_register {off : BitVec 6} (s : State)
    (hoff : off = 0x00#6 ∨ (0x18 ≤ off.toNat ∧ off.toNat % 4 = 0)) :
    regRead 32 off s = .next (s.setReply (some (.word 0x00000000#32))) := by
  rcases hoff with rfl | ⟨hres, haligned⟩
  · exact regRead_supported rfl
  · rw [regRead_supported haligned, Reg.at_eq_reserved hres]
    rfl

/-- Settles O48: the registers by the table of R110, memory and the draws with no job to abort and with one. -/
theorem resetEffect : Obligations.ResetEffect := by
  unfold Obligations.ResetEffect
  intro s hs
  refine ⟨rfl, rfl, rfl, rfl, rfl, rfl, rfl, resetEvent_faults s, resetEvent_platform s, resetEvent_inputs s,
    resetEvent_reply s, fun off => regRead_of_no_value_register (resetEvent s),
    fun hidle => ⟨resetEvent_mem_idle s hidle, resetEvent_draws_idle hidle⟩, fun j hj => ⟨fun a ha => ?_, ?_, fun i hi => ?_⟩⟩
  · exact resetEvent_get hs ((State.inActiveDst_job hj).trans ha)
  · exact resetEvent_draws_job hj
  · exact resetEvent_get_window hs hj hi

/-- Settles O49: each field of the reset state, and a supported read of its STATUS. -/
theorem resetState : Obligations.ResetState := by
  unfold Obligations.ResetState
  exact ⟨rfl, rfl, rfl, rfl, rfl, rfl, by decide, by decide, regRead_supported rfl⟩

/-- Settles O50: nothing is listed in memory, STATUS is the idle word, and there is no job. -/
theorem invariantAtReset : Obligations.InvariantAtReset := by
  unfold Obligations.InvariantAtReset
  decide

end Sys2Proof.Machine
end

section
/-! SUPPORT. Host byte accesses to the windows of a job in flight (70_reset_and_hazards.md R115, R116). -/

namespace Sys2Proof.Machine

theorem Platform.inRegWindow_eq_inWindow (p : Platform) (a : Nat) :
    Platform.inRegWindow p a = inWindow (Platform.regBase p).toNat 0x40 a := rfl

theorem State.inActiveWindow_iff {s : State} {j : Job} {a : Nat} (hj : s.job = some j) :
    s.inActiveWindow a = true ↔ inWindow j.src.toNat j.n.toNat a = true ∨ inWindow j.dst.toNat j.wlen a = true := by
  simp [State.inActiveWindow, hj, Job.inSrc, Job.inDst]

/-- No byte of an active window is a register (20_memory.md R33). -/
theorem State.Inv.inRegWindow_of_active {s : State} {j : Job} {a : Nat} (h : s.Inv) (hj : s.job = some j)
    (ha : inWindow j.src.toNat j.n.toNat a = true ∨ inWindow j.dst.toNat j.wlen a = true) :
    Platform.inRegWindow s.platform a = false := by
  obtain ⟨_, hsrc, hdst⟩ := h.disjoint hj
  rw [Platform.inRegWindow_eq_inWindow, Bool.eq_false_iff]
  intro hreg
  rcases ha with ha | ha
  · exact overlap_eq_false_iff_no_shared_address.1 hsrc a ⟨ha, hreg⟩
  · exact overlap_eq_false_iff_no_shared_address.1 hdst a ⟨ha, hreg⟩

/-- A byte of the active source window is no byte of the destination window (20_memory.md R33). -/
theorem State.Inv.inActiveDst_of_src {s : State} {j : Job} {a : Nat} (h : s.Inv) (hj : s.job = some j)
    (ha : inWindow j.src.toNat j.n.toNat a = true) : s.inActiveDst a = false := by
  obtain ⟨hdisjoint, _, _⟩ := h.disjoint hj
  rw [State.inActiveDst_job hj, Bool.eq_false_iff]
  exact fun hdst => overlap_eq_false_iff_no_shared_address.1 hdisjoint a ⟨ha, hdst⟩

theorem hostStore_active {a : Word} {b : Byte} {s : State} (hr : Platform.inRegWindow s.platform a.toNat = false)
    (ho : isOrdinary s.platform a.toNat = true) (hw : s.inActiveWindow a.toNat = true) :
    hostStore a b s = .next ((s.recordFault .windowHazard).setMem (Memory.set s.mem a.toNat b)) := by
  simp [hostStore, hr, ho, hw]

theorem hostLoad_activeDst {a : Word} {s : State} (hr : Platform.inRegWindow s.platform a.toNat = false)
    (ho : isOrdinary s.platform a.toNat = true) (hd : s.inActiveDst a.toNat = true) :
    hostLoad a s = .next ((s.setReply (some (.byte (Config.drawByte s.draws)))).setDraws (s.draws + 1)) := by
  simp [hostLoad, hr, ho, hd]

/-- Settles O45: an active window shares no byte with the register window, so the store is recorded and then applied. -/
theorem hostStoreIntoAnActiveWindow : Obligations.HostStoreIntoAnActiveWindow := by
  unfold Obligations.HostStoreIntoAnActiveWindow
  intro s j a b hs hj ha hord
  have hstore := hostStore_active (b := b) (hs.inRegWindow_of_active hj ha) hord ((State.inActiveWindow_iff hj).2 ha)
  exact ⟨_, hstore, rfl, Memory.get_set hs.wf, rfl⟩

/-- Settles O46: the destination window is the active one for loads, and the source window is disjoint from it. -/
theorem hostLoadOfAnActiveWindow : Obligations.HostLoadOfAnActiveWindow := by
  unfold Obligations.HostLoadOfAnActiveWindow
  intro s j a hs hj hord
  refine ⟨fun hdst => ?_, fun hsrc => ?_⟩
  · exact hostLoad_activeDst (hs.inRegWindow_of_active hj (.inr hdst)) hord ((State.inActiveDst_job hj).trans hdst)
  · exact hostLoad_plain (hs.inRegWindow_of_active hj (.inl hsrc)) hord (hs.inActiveDst_of_src hj hsrc)

end Sys2Proof.Machine
end

section
/-! SUPPORT. WAITDONE: in `step`, and in executions that leave open which agent moves (70_reset_and_hazards.md R117). -/

namespace Sys2Proof.Machine

/-! ## One poll (30_encoding.md R60) -/

theorem pollStatus_of_not_done {again rest : List Event} {s : State} (h : s.done = false) :
    pollStatus again rest s = (s.setReply (some (.word s.status))).setInputs again := by simp [pollStatus, h]

theorem pollStatus_of_done {again rest : List Event} {s : State} (h : s.done = true) :
    pollStatus again rest s = (s.setReply (some (.word s.status))).setInputs rest := by simp [pollStatus, h]

/-- While a job is in flight DONE is 0 (10_state.md R15). -/
theorem State.Inv.not_done {s : State} {j : Job} (h : s.Inv) (hj : s.job = some j) : s.done = false := by
  obtain ⟨hb, _, _, _⟩ := h.job hj
  rw [State.done, h.status_of_busy hb]
  decide

/-- A job that completed left DONE = 1 (60_exceptions.md R102). -/
theorem State.finish_done (s : State) (j : Job) : (s.finish j).done = true := by
  rcases s.finish_cases j with ⟨_, h⟩ | ⟨_, _, _, h⟩ | ⟨_, _, h⟩ <;> rw [h] <;> exact statusDone_statusWord _ _ _

/-! ## The wait in `step` -/

/-- With DONE = 0 `step` puts the engine's turn before the next poll (log entry 14). -/
theorem step_wait_of_not_done {s : State} {rest : List Event} (h : s.inputs = .waitDone :: rest) (hd : s.done = false) :
    step s = .next ((s.setReply (some (.word s.status))).setInputs (.engine :: .waitDone :: rest)) := by
  rw [(step_eq_poll h).2, pollStatus_of_not_done hd]

theorem step_wait_of_done {s : State} {rest : List Event} (h : s.inputs = .waitDone :: rest) (hd : s.done = true) :
    step s = .next ((s.setReply (some (.word s.status))).setInputs rest) := by
  rw [(step_eq_poll h).2, pollStatus_of_done hd]

/-- A CMD write that ends its command at once, and the poll after it (30_encoding.md R52). -/
theorem steps_reported_wait {s : State} {w : Word} {code : ResultCode} {rest : List Event}
    (hnext : s.inputs = wr .cmd w :: .waitDone :: rest)
    (hcmd : cmdWrite w (s.setInputs (.waitDone :: rest)) = .next ((s.setInputs (.waitDone :: rest)).report code 0)) :
    steps 2 s = .next (((s.report code 0).setReply (some (.word (statusWord false true code)))).setInputs rest) := by
  have hwrite := (step_event hnext).trans hcmd
  have hpoll := step_wait_of_done (s := (s.setInputs (.waitDone :: rest)).report code 0) rfl
    (statusDone_statusWord false true code)
  exact (steps_succ 1 hwrite).trans (steps_succ 0 hpoll)

/-- Over admitted, ordinary windows the engine's turn completes the job. -/
theorem engineTurn_completes {s : State} {j : Job} (hj : s.job = some j) (hadm : jobAdmitted s.platform j = true)
    (hord : jobOrdinary s.platform j = true) : engineTurn s = .next (s.finish j) := by
  rw [engineTurn_job hj, complete_good hadm hord]

/-- The engine's turn between two polls, and the poll that finds the job completed. -/
theorem steps_engine_wait {s : State} {j : Job} {rest : List Event} (hj : s.job = some j)
    (hadm : jobAdmitted s.platform j = true) (hord : jobOrdinary s.platform j = true)
    (hnext : s.inputs = .waitDone :: rest) :
    steps 2 (s.setInputs (.engine :: s.inputs)) =
      .next (((s.finish j).setReply (some (.word (s.finish j).status))).setInputs rest) := by
  have hengine : step (s.setInputs (.engine :: s.inputs)) = .next (s.finish j) :=
    (step_event (e := .engine) (rest := s.inputs) rfl).trans (engineTurn_completes hj hadm hord)
  have hpoll := step_wait_of_done ((s.finish_inputs j).trans hnext) (s.finish_done j)
  exact (steps_succ 1 hengine).trans (steps_succ 0 hpoll)

/-- Settles O58: an accepted job completes at the engine's turn between two polls; a refused word has reported before the
first poll. -/
theorem waitDoneEndsAfterACommand : Obligations.WaitDoneEndsAfterACommand := by
  unfold Obligations.WaitDoneEndsAfterACommand
  refine ⟨fun s j rest hs hj hadm hord hnext => ?_, fun s w rest hs hb hnext hrefused => ?_⟩
  · have hpoll := step_wait_of_not_done hnext (hs.not_done hj)
    have hend := steps_engine_wait (s := (s.setReply (some (.word s.status))).setInputs (.waitDone :: rest))
      hj hadm hord rfl
    exact ⟨_, (steps_succ 2 hpoll).trans hend, rfl, State.finish_done _ j, State.finish_job _ j, rfl⟩
  · rcases hrefused with hw | ⟨i, hw, hwin⟩
    · refine ⟨_, steps_reported_wait hnext (cmdWrite_illegal_idle hb hw), rfl, statusDone_statusWord _ _ _,
        hs.no_job hb, ?_, rfl⟩
      rw [if_pos hw]
      rfl
    · refine ⟨_, steps_reported_wait hnext (cmdWrite_refuses hb hw hwin), rfl, statusDone_statusWord _ _ _,
        hs.no_job hb, ?_, rfl⟩
      rw [if_neg (by simp [hw])]
      rfl

/-- What every step goes on from and keeps holds after any number of steps. -/
theorem steps_keep {p : State → Prop} (hstep : ∀ s, p s → ∃ t, step s = .next t ∧ p t) (k : Nat) {s : State} (hs : p s) :
    ∃ t, steps k s = .next t ∧ p t := by
  induction k generalizing s with
  | zero => exact ⟨s, rfl, hs⟩
  | succ k ih =>
    obtain ⟨t, hst, ht⟩ := hstep s hs
    rw [steps_succ k hst]
    exact ih ht

/-- The host waits, and no command has been issued since reset. -/
def State.WaitsInVain (rest : List Event) (s : State) : Prop :=
  s.status = 0#32 ∧ s.job = none ∧ (s.inputs = .waitDone :: rest ∨ s.inputs = .engine :: .waitDone :: rest)

theorem State.WaitsInVain.not_done {rest : List Event} {s : State} (h : s.WaitsInVain rest) : s.done = false := by
  obtain ⟨hstatus, _, _⟩ := h
  rw [State.done, hstatus]
  decide

theorem State.WaitsInVain.step {rest : List Event} {s : State} (h : s.WaitsInVain rest) :
    ∃ t, Machine.step s = .next t ∧ t.WaitsInVain rest := by
  have hd := h.not_done
  obtain ⟨hstatus, hjob, hnext | hnext⟩ := h
  · exact ⟨_, step_wait_of_not_done hnext hd, hstatus, hjob, .inr rfl⟩
  · have hidle : (s.setInputs (.waitDone :: rest)).job = none := hjob
    exact ⟨_, (step_event hnext).trans (engineTurn_idle hidle), hstatus, hjob, .inl rfl⟩

/-- Settles O59: a poll with DONE = 0 brings the wait back, and without a job the engine's turn between two polls does
nothing. -/
theorem waitDoneWithoutACommandNeverEnds : Obligations.WaitDoneWithoutACommandNeverEnds := by
  unfold Obligations.WaitDoneWithoutACommandNeverEnds
  intro s rest k hstatus hjob hnext
  obtain ⟨t, hsteps, ht⟩ := steps_keep (fun _ => State.WaitsInVain.step) k
    (show s.WaitsInVain rest from ⟨hstatus, hjob, .inl hnext⟩)
  have hd := ht.not_done
  obtain ⟨_, _, hinputs⟩ := ht
  exact ⟨t, hsteps, hd, hinputs⟩

/-! ## The wait in an execution -/

/-- A poll with DONE = 0 gives the host its datum and changes nothing else. -/
theorem agentTurn_wait_of_not_done {s : State} {rest : List Event} (h : s.inputs = .waitDone :: rest)
    (hd : s.done = false) : agentTurn .host s = .next (s.setReply (some (.word s.status))) := by
  rw [agentTurn_wait h, pollStatus_of_not_done hd, ← h]
  rfl

theorem agentTurn_wait_of_done {s : State} {rest : List Event} (h : s.inputs = .waitDone :: rest) (hd : s.done = true) :
    agentTurn .host s = .next ((s.setReply (some (.word s.status))).setInputs rest) := by
  rw [agentTurn_wait h, pollStatus_of_done hd]

theorem Agent.eq_host {a : Agent} (h : a ≠ .engine) : a = .host := by
  cases a with
  | host => rfl
  | engine => exact absurd rfl h

theorem Agent.eq_engine {a : Agent} (h : a ≠ .host) : a = .engine := by
  cases a with
  | host => exact absurd rfl h
  | engine => rfl

/-- At a wait only the engine's own move gives the engine its turn. -/
theorem eq_engine_of_movesEngine {a : Agent} {s : State} {rest : List Event} (h : s.inputs = .waitDone :: rest)
    (ha : a.movesEngine s) : a = .engine := by
  rcases ha with ha | ⟨_, hnext⟩
  · exact ha
  · cases h.symm.trans hnext

section
variable {choice : Nat → Agent} {run : Nat → State}

theorem Execution.next_eq {k : Nat} {a : Agent} {s t : State} (hx : Execution choice run) (hrun : run k = s)
    (ha : choice k = a) (h : agentTurn a s = .next t) : run (k + 1) = t := by
  have hk := hx k
  rw [ha, hrun, h] at hk
  cases hk
  rfl

/-- What every move but those of agent `a` keeps holds until `a` moves. -/
theorem kept_until_move {p : State → Prop} {a : Agent} {k m : Nat}
    (hkeep : ∀ i, p (run i) → choice i ≠ a → p (run (i + 1))) (hk : p (run k)) (hkm : k ≤ m) :
    p (run m) ∨ ∃ i, k ≤ i ∧ p (run i) ∧ choice i = a := by
  induction m, hkm using Nat.le_induction with
  | base => exact .inl hk
  | succ m hkm ih =>
    rcases ih with hm | hmoved
    · by_cases ha : choice m = a
      · exact .inr ⟨m, hkm, hm, ha⟩
      · exact .inl (hkeep m hm ha)
    · exact .inr hmoved

/-- Since `s` the host got a datum at most. -/
def State.PolledFrom (s t : State) : Prop := ∃ r, t = s.setReply r

/-- Under FairEngine the engine moves during a wait with a job in flight, and until then the host only polls. -/
theorem Execution.engine_moves_in_wait {j : Job} {rest : List Event} (hx : Execution choice run)
    (hfair : FairEngine choice run) (hs : (run 0).Inv) (hj : (run 0).job = some j)
    (hnext : (run 0).inputs = .waitDone :: rest) : ∃ k, (run 0).PolledFrom (run k) ∧ choice k = .engine := by
  have hkeep : ∀ i, (run 0).PolledFrom (run i) → choice i ≠ .engine → (run 0).PolledFrom (run (i + 1)) := by
    rintro i ⟨r, hi⟩ hne
    have hpoll := agentTurn_wait_of_not_done (s := (run 0).setReply r) hnext ((hs.setReply r).not_done hj)
    exact ⟨_, hx.next_eq hi (Agent.eq_host hne) hpoll⟩
  by_contra hnever
  have hpolled : ∀ m, (run 0).PolledFrom (run m) := fun m =>
    (kept_until_move hkeep ⟨(run 0).reply, rfl⟩ m.zero_le).resolve_right fun ⟨i, _, hmoved⟩ => hnever ⟨i, hmoved⟩
  have henabled : ∀ m, (run m).job ≠ none := by
    intro m
    obtain ⟨r, hr⟩ := hpolled m
    simp [hr, hj]
  obtain ⟨m, _, hm⟩ := hfair 0 fun m _ => henabled m
  obtain ⟨r, hr⟩ := hpolled m
  rw [hr] at hm
  exact hnever ⟨m, ⟨r, hr⟩, eq_engine_of_movesEngine hnext hm⟩

/-- Once the job has ended, under HostRuns the next poll ends the wait, and until then nothing changes. -/
theorem Execution.wait_ends {s : State} {rest : List Event} {k : Nat} (hx : Execution choice run)
    (hhost : HostRuns choice) (hrun : run k = s) (hj : s.job = none) (hd : s.done = true)
    (hnext : s.inputs = .waitDone :: rest) :
    ∃ m, run m = (s.setReply (some (.word s.status))).setInputs rest := by
  have hkeep : ∀ i, run i = s → choice i ≠ .host → run (i + 1) = s := fun i hi hne =>
    hx.next_eq hi (Agent.eq_engine hne) (engineTurn_idle hj)
  have hpolls : ∃ i, run i = s ∧ choice i = .host := by
    obtain ⟨m, hkm, hm⟩ := hhost k
    rcases kept_until_move (p := (· = s)) hkeep hrun hkm with hsame | ⟨i, _, hmoved⟩
    · exact ⟨m, hsame, hm⟩
    · exact ⟨i, hmoved⟩
  obtain ⟨i, hi, ha⟩ := hpolls
  exact ⟨i + 1, hx.next_eq hi ha (agentTurn_wait_of_done hnext hd)⟩

/-- A wait with a job in flight ends, in the state that the job left, with STATUS given to the host. -/
theorem Execution.wait_ends_with_job {j : Job} {rest : List Event} (hx : Execution choice run)
    (hfair : FairEngine choice run) (hhost : HostRuns choice) (hordinary : OrdinaryWindows run) (hs : (run 0).Inv)
    (hj : (run 0).job = some j) (hnext : (run 0).inputs = .waitDone :: rest) :
    ∃ s m, (run 0).PolledFrom s ∧ run m = ((s.finish j).setReply (some (.word (s.finish j).status))).setInputs rest := by
  obtain ⟨k, ⟨r, hk⟩, hengine⟩ := hx.engine_moves_in_wait hfair hs hj hnext
  have hwindows := hordinary k j
  rw [hk] at hwindows
  obtain ⟨hadm, hord⟩ := hwindows hj
  have hended := hx.next_eq hk hengine (engineTurn_completes hj hadm hord)
  obtain ⟨m, hm⟩ := hx.wait_ends hhost hended (State.finish_job _ j) (State.finish_done _ j)
    ((State.finish_inputs _ j).trans hnext)
  exact ⟨_, m, ⟨r, rfl⟩, hm⟩

end

/-- Settles O60: the host only polls until the engine completes the job, which fairness makes happen, and nothing changes from
then until the host's next poll, which ends the wait. -/
theorem waitDoneEndsInAFairExecution : Obligations.WaitDoneEndsInAFairExecution := by
  unfold Obligations.WaitDoneEndsInAFairExecution
  intro choice run j rest hx hfair hhost hordinary hs hj hnext
  obtain ⟨_, m, ⟨r, rfl⟩, hm⟩ := hx.wait_ends_with_job hfair hhost hordinary hs hj hnext
  have hresult := fun code out => (hs.setReply r).finish_result (code := code) (out := out) hj
  refine ⟨m, ?_⟩
  rw [hm]
  refine ⟨rfl, State.finish_done _ j, State.finish_job _ j, State.finish_faults _ j, rfl, fun hop => ?_,
    fun hop out hdec => ?_, fun hop hdec => ?_⟩
  · have hlen := hs.length_enc hj hop
    obtain ⟨hstatus, houtLen, hread⟩ :=
      hresult .ok (enc (Memory.read (run 0).mem j.src.toNat j.n.toNat)) (by rw [hop]; rfl)
    rw [hlen] at houtLen hread
    exact ⟨hstatus, houtLen, hread⟩
  · exact hresult .ok out (by simp [hop, commandResult, hdec])
  · obtain ⟨hstatus, houtLen, _⟩ := hresult .invalidInput [] (by simp [hop, commandResult, hdec])
    exact ⟨hstatus, BitVec.eq_of_toNat_eq houtLen⟩

end Sys2Proof.Machine
end
